-- ==== Sys2Proof/Word.lean ====
section
/-! DEFINITION. The widths of the block's words (spec/00_scope.md R5, spec/30_encoding.md R60, R64). -/

namespace Sys2Proof

/-- The operand of a command, `cmd[31:0]`, ARG_W = 32 (R5, R60). -/
abbrev Arg := BitVec 32

/-- An opcode, `cmd[34:32]` (R60). -/
abbrev Op := BitVec 3

/-- A whole command word `op ‖ arg` (R60). -/
abbrev Cmd := BitVec 35

/-- Response data, DATA_W = 64 (R5, R64). -/
abbrev Data := BitVec 64

/-- A stored prescaler ordinal, PRESC_W = 3 (R5, R22). -/
abbrev PrescOrdinal := BitVec 3

/-- A compare value, CMP_W = 16 (R5, R21). -/
abbrev CompareValue := BitVec 16

/-- A half-word field of a reader's operand (R67). -/
abbrev Half := BitVec 16

end Sys2Proof
end

