-- ==== Sys2Proof/Syntax.lean ====
section
/-! DEFINITION. The six commands of the TPS command set, version 1 (spec/30_encoding.md R62, R63, R74; spec/00_scope.md R1). -/

namespace Sys2Proof

/-- One constructor per row of spec/opcode_table.json. The operand types are exactly as wide as the fields of the
command word, and no bit of `arg` is ignored or reserved (R63, R70), so every value is a command. -/
inductive Instr where
  /-- SOLVF: solve from a frequency in hertz (R111). -/
  | solvf (freqHz : Arg)
  /-- SOLVP: solve from a period in microseconds (R116). -/
  | solvp (periodUs : Arg)
  /-- RDF: the frequency of the TimerConfig (ordinal, compare value) given by value (R133). -/
  | rdf (o : Half) (c : Half)
  /-- RDP: the period of the TimerConfig given by value (R137). -/
  | rdp (o : Half) (c : Half)
  /-- SETPS: store a prescaler ordinal (R151). -/
  | setps (ord : Arg)
  /-- SETCV: store a compare value (R154). -/
  | setcv (val : Arg)
deriving DecidableEq, Repr

end Sys2Proof
end

