-- ==== Sys2Proof/WellFormed.lean ====
section
/-! DEFINITION. Assembler statements and the check of their operand ranges (spec/30_encoding.md R72, R73).
A term of `Instr` carries its operand widths in its types and needs no check (R63, R70: every operand value is a
command). What can be ill-formed is a STATEMENT of the assembler, whose operands are plain numbers: "operands out of
the stated assembler range cannot be encoded and are an assembly error, not a command" (R72). -/

namespace Sys2Proof

/-- An assembler statement (R72), the `.word` directive and the two loop-back pseudo-instructions (R73) among them. -/
inductive Stmt where
  | solvf (n : Nat)
  | solvp (n : Nat)
  | rdf (o : Nat) (c : Nat)
  | rdp (o : Nat) (c : Nat)
  | setps (n : Nat)
  | setcv (n : Nat)
  /-- `.word w`: the 35-bit word itself (R72). -/
  | word (w : Nat)
  /-- `RDF @` (R73). -/
  | rdfAt
  /-- `RDP @` (R73). -/
  | rdpAt
deriving DecidableEq, Repr

/-- The operand ranges of R72. -/
def Stmt.wellFormed : Stmt → Bool
  | .solvf n => decide (n < 2 ^ 32)
  | .solvp n => decide (n < 2 ^ 32)
  | .rdf o c => decide (o < 2 ^ 16) && decide (c < 2 ^ 16)
  | .rdp o c => decide (o < 2 ^ 16) && decide (c < 2 ^ 16)
  | .setps n => decide (n < 2 ^ 32)
  | .setcv n => decide (n < 2 ^ 32)
  | .word w => decide (w < 2 ^ 35)
  | .rdfAt => true
  | .rdpAt => true

end Sys2Proof
end

