-- ==== Sys2Proof/Decode.lean ====
section
/-! DEFINITION. Decoding a command word (spec/30_encoding.md R60, R62, R67, R69, R74), encoding a command into one, and
assembling a statement (R72, R73). -/

namespace Sys2Proof

/-- Why a command word is no command: its opcode is reserved (R69). -/
inductive DecodeError where
  /-- `op` is 0 or 7. The step answers IllegalOp (R173); safe, it is the spec's own error. -/
  | reservedOpcode (op : Op)
deriving DecidableEq, Repr

/-- `cmd[34:32]` (R60). -/
def opField (cmd : Cmd) : Op := cmd.extractLsb' 32 3

/-- `cmd[31:0]` (R60). -/
def argField (cmd : Cmd) : Arg := cmd.extractLsb' 0 32

/-- `arg[31:16]`, the ordinal of a reader's operand (R67). -/
def ordinalField (arg : Arg) : Half := arg.extractLsb' 16 16

/-- `arg[15:0]`, the compare value of a reader's operand (R67). -/
def compareField (arg : Arg) : Half := arg.extractLsb' 0 16

/-- The decoding procedure of R74, total on all 35-bit words; the reserved opcodes 0 and 7 are rejected by name. -/
def decode (cmd : Cmd) : Except DecodeError Instr :=
  let arg := argField cmd
  match (opField cmd).toNat with
  | 1 => .ok (.solvf arg)
  | 2 => .ok (.solvp arg)
  | 3 => .ok (.rdf (ordinalField arg) (compareField arg))
  | 4 => .ok (.rdp (ordinalField arg) (compareField arg))
  | 5 => .ok (.setps arg)
  | 6 => .ok (.setcv arg)
  | _ => .error (.reservedOpcode (opField cmd))

/-- The opcode map of R62. -/
def Instr.opcode : Instr → Op
  | .solvf _ => 0b001#3
  | .solvp _ => 0b010#3
  | .rdf _ _ => 0b011#3
  | .rdp _ _ => 0b100#3
  | .setps _ => 0b101#3
  | .setcv _ => 0b110#3

/-- The operand word of a command (R63, R67). -/
def Instr.argWord : Instr → Arg
  | .solvf f => f
  | .solvp p => p
  | .rdf o c => o ++ c
  | .rdp o c => o ++ c
  | .setps n => n
  | .setcv v => v

/-- The command word `op ‖ arg` of a command (R60). -/
def encode (i : Instr) : Cmd := i.opcode ++ i.argWord

/-- The command word in a table word of `nbits` bits, if there is one: the one command length is 35 bits (R61), so
a word with a bit above bit 34 is no command. Bits at `nbits` and above count as 0. DESIGN CHOICE (log 8). -/
def tableCommand (nbits w : Nat) : Option Cmd :=
  if w % 2 ^ nbits < 2 ^ 35 then some (BitVec.ofNat 35 (w % 2 ^ nbits)) else none

/-- What the decoder reads from a table word; none where it refuses. -/
def decodeTableWord (nbits w : Nat) : Option Instr :=
  (tableCommand nbits w).bind fun cmd => (decode cmd).toOption

/-- The operand a loop-back passes: "the low 32 bits of the `data`" of a TimerConfig response (R73, R67). -/
def loopBackArg (image : Data) : Arg := image.extractLsb' 0 32

/-- Assemble one statement (R72, R73). `image` is the data of the most recent OK response of SOLVF, SOLVP, SETPS or
SETCV, none while there is none. The answer is none on an assembly error: an operand out of its range, or `@` while
no image is known. -/
def assemble (image : Option Data) (st : Stmt) : Option Cmd :=
  if st.wellFormed then
    match st with
    | .solvf n => some (encode (.solvf (BitVec.ofNat 32 n)))
    | .solvp n => some (encode (.solvp (BitVec.ofNat 32 n)))
    | .rdf o c => some (encode (.rdf (BitVec.ofNat 16 o) (BitVec.ofNat 16 c)))
    | .rdp o c => some (encode (.rdp (BitVec.ofNat 16 o) (BitVec.ofNat 16 c)))
    | .setps n => some (encode (.setps (BitVec.ofNat 32 n)))
    | .setcv n => some (encode (.setcv (BitVec.ofNat 32 n)))
    | .word w => some (BitVec.ofNat 35 w)
    | .rdfAt => image.map fun d => encode (.rdf (ordinalField (loopBackArg d)) (compareField (loopBackArg d)))
    | .rdpAt => image.map fun d => encode (.rdp (ordinalField (loopBackArg d)) (compareField (loopBackArg d)))
  else none

end Sys2Proof
end

