-- ==== Sys2Proof/Config.lean ====
section
/-! DEFINITION. The constants of the block (spec/00_scope.md R5, spec/10_state.md R30) and its one open parameter. -/

namespace Sys2Proof.Config

/-- BASE_CLOCK in hertz (R5, R30). -/
def baseClock : Nat := 8000000

/-- TICKS_PER_US = BASE_CLOCK / 1,000,000, the literal 8 of the period formulas (R5). -/
def ticksPerUs : Nat := 8

/-- F_MIN and F_MAX, the frequency-mode input domain in hertz (R5). -/
def fMin : Nat := 1
def fMax : Nat := 8000000

/-- P_MIN and P_MAX, the period-mode input domain in microseconds (R5). -/
def pMin : Nat := 1
def pMax : Nat := 8000000

/-- The open part of LATENCY (R5, R213, D18): uninterpreted, it may differ per command and per operand. -/
opaque latencyBeyondFirst : Cmd → Nat

/-- LATENCY, the clock cycles from acceptance of a command word to its response: a positive number that no
rule depends on (R213); nothing in the model reads it. -/
def latency (cmd : Cmd) : Nat := latencyBeyondFirst cmd + 1

end Sys2Proof.Config
end

