-- ==== Sys2Proof/Machine/State.lean ====
section
/-! DEFINITION. The state of the block, its reset value, and the outcomes of a step (spec/10_state.md R20 to R34,
spec/30_encoding.md R64, R65, spec/70_reset_and_hazards.md R200, R201). -/

namespace Sys2Proof.Machine

/-- The three errors (R170). -/
inductive CmdError where
  /-- Raised by SOLVF, SOLVP, SETPS, SETCV on an operand outside the command's domain (R171). -/
  | outOfRange
  /-- Raised by RDF, RDP on an ordinal with no divisor (R172). -/
  | invalidPrescaler
  /-- Raised on a reserved opcode (R173). -/
  | illegalOp
deriving DecidableEq, Repr

/-- The status of a response (R64, R65). -/
inductive Status where
  | ok
  | error (e : CmdError)
deriving DecidableEq, Repr

/-- The response word (R64). -/
structure Response where
  status : Status
  data   : Data
deriving DecidableEq, Repr

/-- One thing the host does to the block (R204). Each event is one step of the model; DESIGN CHOICE (log 1, log 4). -/
inductive HostEvent where
  /-- `req_valid` = 0 and `rst` = 0. -/
  | idle
  /-- The host presents a command word; it is accepted and answered with no reset in between (R28, R46). -/
  | command (cmd : Cmd)
  /-- The host asserts `rst` between two commands (R200), perhaps while it presents a command word, which is not
  accepted: `req_ready` = 0 (R201). -/
  | reset (held : Option Cmd)
  /-- A command word is accepted, and reset takes effect before it is answered (R201). -/
  | commandThenReset (cmd : Cmd)
deriving DecidableEq, Repr

/-- The block's registers, its response port, and what the host does next. -/
structure State where
  /-- `CFG.PRESC`, the prescaler ordinal (R22). -/
  presc : PrescOrdinal
  /-- `CFG.CMP`, the compare value (R21). -/
  cmp   : CompareValue
  /-- The response port after the latest step: none is `rsp_valid` = 0 (R28, R31; log 2). -/
  rsp   : Option Response
  /-- The model's own field: the host's coming events, next first (R26; log 1). -/
  host  : List HostEvent
deriving DecidableEq, Repr

/-- `reset_state` (R31): `CFG` = (0, 0), no response presented. No host event is waiting (log 1). -/
def State.reset : State where
  presc := 0#3
  cmp   := 0#16
  rsp   := none
  host  := []

/-- A step never faults: `step` is total and every command word in every state has a response (R8, R178, R210), so
there is no fault to name. An error of a command is a response, not a fault (R170). -/
inductive Fault where
deriving DecidableEq, Repr

/-- Reasons for which the model gives an instruction no meaning. -/
inductive Refusal where
  /-- Raised by `exec` in the arm of an instruction that has no meaning yet; safe. No arm raises it: all six commands
  have their meaning. -/
  | notModelled (mnemonic : String)
deriving DecidableEq, Repr

/-- The outcome of one step of this machine. -/
abbrev Result := Host.Outcome State Fault Refusal

end Sys2Proof.Machine
end

