-- ==== Sys2Proof/Machine/Selector.lean ====
section
/-! DEFINITION. The divisor table and the two ladders (spec/40_prescaler_selector.md). -/

namespace Sys2Proof.Machine

/-- The five prescalers, named by their divisors (R9, R90). -/
inductive Prescaler where
  | by1 | by8 | by64 | by256 | by1024
deriving DecidableEq, Repr

/-- The ordinal of a prescaler (R90). -/
def Prescaler.ordinal : Prescaler → PrescOrdinal
  | .by1 => 1#3
  | .by8 => 2#3
  | .by64 => 3#3
  | .by256 => 4#3
  | .by1024 => 5#3

/-- The divisor of a prescaler (R90). -/
def Prescaler.div : Prescaler → Nat
  | .by1 => 1
  | .by8 => 8
  | .by64 => 64
  | .by256 => 256
  | .by1024 => 1024

/-- The prescaler of an ordinal, none for 0 and for 6 and above (R90). -/
def Prescaler.ofOrdinal (o : Nat) : Option Prescaler :=
  match o with
  | 1 => some .by1
  | 2 => some .by8
  | 3 => some .by64
  | 4 => some .by256
  | 5 => some .by1024
  | _ => none

/-- `DIV(o)`, undefined (none) where the table has no divisor (R90). -/
def DIV (o : Nat) : Option Nat := (Prescaler.ofOrdinal o).map Prescaler.div

/-- Evaluate a ladder from its first rung down: the prescaler of the first rung whose condition holds between the
input and the rung's threshold, else that of the last rung, "otherwise" (R91). -/
def climb (holds : Nat → Nat → Bool) (otherwise : Prescaler) : List (Nat × Prescaler) → Nat → Prescaler
  | [], _ => otherwise
  | (threshold, p) :: rungs, x => if holds x threshold then p else climb holds otherwise rungs x

/-- The frequency ladder's rungs 1 to 4, "`f >= threshold`" (R92). -/
def freqRungs : List (Nat × Prescaler) := [(123, .by1), (16, .by8), (2, .by64), (1, .by256)]

/-- The period ladder's rungs 1 to 4, "`p <= threshold`"; rung 1, "`p == 0`", is `p <= 0` (R94). -/
def periodRungs : List (Nat × Prescaler) := [(0, .by1), (65536, .by8), (524288, .by64), (2097152, .by256)]

/-- `SELF(f)` (R92). Rung 5 is dead and kept (R93; log 7). -/
def selF (f : Nat) : Prescaler := climb (fun x t => decide (x ≥ t)) .by1024 freqRungs f

/-- `SELP(p)` (R94). Rung 1 is dead and kept (R98; log 7). -/
def selP (p : Nat) : Prescaler := climb (fun x t => decide (x ≤ t)) .by1024 periodRungs p

end Sys2Proof.Machine
end

