-- ==== Sys2Proof/Machine/Operands.lean ====
section
/-! DEFINITION. The operand tests of the commands and the TimerConfig image (spec/30_encoding.md R63, R66, R67). Every test
compares the whole operand, as an unsigned number (R63). -/

namespace Sys2Proof.Machine

/-- The domain of SOLVF's operand (R63, R111). -/
def freqInDomain (f : Arg) : Bool := decide (Config.fMin ≤ f.toNat) && decide (f.toNat ≤ Config.fMax)

/-- The domain of SOLVP's operand (R63, R116). -/
def periodInDomain (p : Arg) : Bool := decide (Config.pMin ≤ p.toNat) && decide (p.toNat ≤ Config.pMax)

/-- SETCV's operand as a compare value: the whole 32-bit operand is tested, none above 65535 (R63, R154). -/
def compareOperand (v : Arg) : Option CompareValue :=
  if v.toNat ≤ 65535 then some (v.extractLsb' 0 16) else none

/-- SETPS's operand as a prescaler: the whole 32-bit operand is tested, none outside 1..5 (R63, R151). -/
def prescalerOperand (n : Arg) : Option Prescaler := Prescaler.ofOrdinal n.toNat

/-- The ordinal field of a reader's operand as a prescaler, none outside 1..5 (R67, R133, R137). -/
def readerPrescaler (o : Half) : Option Prescaler := Prescaler.ofOrdinal o.toNat

/-- `pack(o, c)`: `data[15:0]` = c, `data[18:16]` = o, the rest 0 (R66). -/
def pack (o : PrescOrdinal) (c : CompareValue) : Data := (0#45 ++ o ++ c : BitVec 64)

end Sys2Proof.Machine
end

