-- ==== Sys2Proof/Machine/Ops.lean ====
section
/-! DEFINITION. The operations the meanings share: register writes, the two ways a command ends (`respond` and `raise`,
spec/00_scope.md R7), reset, waiting, and the rounding of the solver (R7, R112). -/

namespace Sys2Proof.Machine

/-- `CFG.PRESC <- o` (R7, R45). -/
def State.writePresc (s : State) (o : PrescOrdinal) : State := { s with presc := o }

/-- `CFG.CMP <- c` (R7, R45). -/
def State.writeCmp (s : State) (c : CompareValue) : State := { s with cmp := c }

/-- Both fields in one step (R29, R206). -/
def State.writeCfg (s : State) (o : PrescOrdinal) (c : CompareValue) : State := (s.writePresc o).writeCmp c

/-- `respond OK(d)` (R7, R64). -/
def State.respondOk (s : State) (d : Data) : State := { s with rsp := some { status := .ok, data := d } }

/-- Respond OK with the image of `CFG`; given after the writes, it shows the state after the command (R66). -/
def State.respondConfig (s : State) : State := s.respondOk (pack s.presc s.cmp)

/-- `raise E`: the one shared way an error is taken. The status is the error's, the data is 0, and no register is
written (R7, R175). Nothing is saved and there is no return (R177). -/
def State.raise (s : State) (e : CmdError) : State := { s with rsp := some { status := .error e, data := 0#64 } }

/-- Reset takes effect: `reset_state`, no response (R200, R201). The host's coming events are the host's, not the
block's, and stay (log 4). -/
def State.takeReset (s : State) : State := { State.reset with host := s.host }

/-- No command is presented: the block waits, and no response is presented (R26; log 2). -/
def State.wait (s : State) : State := { s with rsp := none }

/-- `round_haz(a / b)` of a non-negative rational: round half away from zero (R7, R112). -/
def roundHaz (a b : Nat) : Nat := (2 * a + b) / (2 * b)

/-- A compare value as its 16-bit register holds it. In a command's domain the number fits (R114, R118), so that
this narrowing never changes a value; DESIGN CHOICE, unobservable (U1; log 6). -/
def narrowCompare (n : Nat) : CompareValue := BitVec.ofNat 16 n

end Sys2Proof.Machine
end

