-- ==== Sys2Proof/Machine/Override.lean ====
section
/-! DEFINITION. SETPS and SETCV (spec/43_override.md): each writes one field, keeps the other, and checks only its own
operand (R150). -/

namespace Sys2Proof.Machine

/-- SETPS (R151, R152). -/
def execSetps (ord : Arg) (s : State) : Result :=
  match prescalerOperand ord with
  | some p => .next (s.writePresc p.ordinal).respondConfig
  | none => .next (s.raise .outOfRange)

/-- SETCV (R154, R155). -/
def execSetcv (val : Arg) (s : State) : Result :=
  match compareOperand val with
  | some c => .next (s.writeCmp c).respondConfig
  | none => .next (s.raise .outOfRange)

end Sys2Proof.Machine
end

