-- ==== Sys2Proof/Machine/Float64.lean ====
section
/-! DEFINITION. `f64`, the binary64 pattern of a positive rational, rounded to nearest with ties to even
(spec/42_reader.md R130, spec/30_encoding.md R68; the layout and the rounding mode are D12, general knowledge G1; log 10). -/

namespace Sys2Proof.Machine

/-- `e = floor(log2(N/D))`: the integer with `2^e * D <= N < 2^(e+1) * D`, for positive N and D (R130). Below 1 it is
minus the least k with `N * 2^k >= D`. -/
def f64Exponent (N D : Nat) : Int :=
  if D ≤ N then (Nat.log2 (N / D) : Int) else -((Nat.log2 ((D - 1) / N) : Int) + 1)

/-- `m` before rounding is `f64Num / f64Den`; `num = N * 2^(52 - e)`, and the denominator is D itself as long as
`e <= 52`, which holds wherever the block uses it (R130; log 12). -/
def f64Num (N D : Nat) : Nat := N * 2 ^ (52 - f64Exponent N D).toNat
def f64Den (N D : Nat) : Nat := D * 2 ^ (f64Exponent N D - 52).toNat

/-- The quotient `num / den` rounded to nearest, ties to even (R130). -/
def roundNearestEven (num den : Nat) : Nat :=
  let m := num / den
  let r := num % den
  if 2 * r > den ∨ (2 * r = den ∧ m % 2 = 1) then m + 1 else m

/-- Sign 0, biased exponent, fraction (R68, R130). -/
def f64Pattern (e : Int) (m : Nat) : Data :=
  (0#1 ++ BitVec.ofInt 11 (e + 1023) ++ BitVec.ofNat 52 (m - 2 ^ 52) : BitVec 64)

/-- `f64(N / D)` (R130). -/
def f64 (N D : Nat) : Data :=
  let e := f64Exponent N D
  let m := roundNearestEven (f64Num N D) (f64Den N D)
  if m = 2 ^ 53 then f64Pattern (e + 1) (2 ^ 52) else f64Pattern e m

/-- The biased exponent field of a binary64 pattern, `data[62:52]` (R68). -/
def f64ExponentField (b : Data) : Nat := (b.extractLsb' 52 11).toNat

/-- The fraction field of a binary64 pattern, `data[51:0]` (R68). -/
def f64FractionField (b : Data) : Nat := (b.extractLsb' 0 52).toNat

end Sys2Proof.Machine
end

