-- ==== Sys2Proof/Machine/Reader.lean ====
section
/-! DEFINITION. RDF and RDP (spec/42_reader.md). They neither read nor write `CFG` (R141). -/

namespace Sys2Proof.Machine

/-- `(c + 1) * DIV(o)`, the counts of one half of the waveform in base-clock ticks: the denominator of `FREQ` and the
numerator of `PER` (R132, R135). -/
def ticks (p : Prescaler) (c : Half) : Nat := (c.toNat + 1) * p.div

/-- RDF (R133): `f64(8000000 / ((c + 1) * DIV(o)))`. -/
def execRdf (o c : Half) (s : State) : Result :=
  match readerPrescaler o with
  | some p => .next (s.respondOk (f64 Config.baseClock (ticks p c)))
  | none => .next (s.raise .invalidPrescaler)

/-- RDP (R137): `f64(((c + 1) * DIV(o)) / 8)`. -/
def execRdp (o c : Half) (s : State) : Result :=
  match readerPrescaler o with
  | some p => .next (s.respondOk (f64 (ticks p c) Config.ticksPerUs))
  | none => .next (s.raise .invalidPrescaler)

end Sys2Proof.Machine
end

