-- ==== Sys2Proof/Machine/Solver.lean ====
section
/-! DEFINITION. SOLVF and SOLVP (spec/41_solver.md). -/

namespace Sys2Proof.Machine

/-- `CMPF(o, f) = round_haz(A(o) / f) - 1` with `A(o) = BASE_CLOCK / DIV(o)` (R112). -/
def cmpF (p : Prescaler) (f : Nat) : Nat := roundHaz (Config.baseClock / p.div) f - 1

/-- `CMPP(o, p) = ((p * 8) div DIV(o)) - 1`, truncating (R117). -/
def cmpP (p : Prescaler) (period : Nat) : Nat := period * Config.ticksPerUs / p.div - 1

/-- SOLVF (R110, R111): test, choose, compute, write both fields and answer the new image. -/
def execSolvf (freqHz : Arg) (s : State) : Result :=
  if freqInDomain freqHz then
    let p := selF freqHz.toNat
    .next (s.writeCfg p.ordinal (narrowCompare (cmpF p freqHz.toNat))).respondConfig
  else .next (s.raise .outOfRange)

/-- SOLVP (R110, R116). -/
def execSolvp (periodUs : Arg) (s : State) : Result :=
  if periodInDomain periodUs then
    let p := selP periodUs.toNat
    .next (s.writeCfg p.ordinal (narrowCompare (cmpP p periodUs.toNat))).respondConfig
  else .next (s.raise .outOfRange)

end Sys2Proof.Machine
end

