-- ==== Sys2Proof/Machine/Dispatch.lean ====
section
/-! DEFINITION. One arm per constructor of Instr (spec/30_encoding.md R62). -/

namespace Sys2Proof.Machine

def exec (i : Instr) (s : State) : Host.Outcome State Fault Refusal :=
  match i with
  | .solvf freqHz => Sys2Proof.Machine.execSolvf freqHz s
  | .solvp periodUs => Sys2Proof.Machine.execSolvp periodUs s
  | .rdf o c => Sys2Proof.Machine.execRdf o c s
  | .rdp o c => Sys2Proof.Machine.execRdp o c s
  | .setps ord => Sys2Proof.Machine.execSetps ord s
  | .setcv val => Sys2Proof.Machine.execSetcv val s

end Sys2Proof.Machine
end

