-- ==== Sys2Proof/Machine/Request.lean ====
section
/-! DEFINITION. Serving one event of the host (spec/10_state.md R26, R28; spec/30_encoding.md R69, R74;
spec/70_reset_and_hazards.md R200, R201). -/

namespace Sys2Proof.Machine

/-- An accepted command word: the opcode is decoded first, so a reserved one gives IllegalOp whatever the operand
(R69, R176); a command runs, whole, as one step (R46). -/
def accept (cmd : Cmd) (s : State) : Result :=
  match decode cmd with
  | .ok i => exec i s
  | .error _ => .next (s.raise .illegalOp)

/-- What one event of the host does to the block. -/
def serve (ev : HostEvent) (s : State) : Result :=
  match ev with
  | .idle => .next s.wait
  | .command cmd => accept cmd s
  | .reset _ => .next s.takeReset
  | .commandThenReset _ => .next s.takeReset

/-- Put a table word where the block takes its next command from: as the host's next event. A word that is no
35-bit command word cannot be presented, and changes nothing (log 8). -/
def State.present (s : State) (nbits w : Nat) : State :=
  match tableCommand nbits w with
  | some cmd => { s with host := .command cmd :: s.host }
  | none => s

end Sys2Proof.Machine
end

