-- ==== Sys2Proof/Machine/Step.lean ====
section
/-! DEFINITION. One step: the block takes the host's next event and serves it, a whole command at a time
(spec/00_scope.md R8, R10; spec/20_memory.md R46); with no event it waits (spec/10_state.md R26). -/

namespace Sys2Proof.Machine

def step (s : State) : Host.Outcome State Fault Refusal :=
  match s.host with
  | [] => .next s.wait
  | ev :: rest => serve ev { s with host := rest }

/-- The command word `w` becomes the host's next event, so that the next step accepts and runs exactly it (log 1). -/
def State.withFetchWord (s : State) (nbits w : Nat) : State := s.present nbits w

end Sys2Proof.Machine
end

