-- ==== Sys2Proof/Machine/Flags.lean ====
section
/-! DEFINITION. The block has no flags and no condition codes (spec/10_state.md R27). Its only report of a condition is the
status of a response; here are the codes it has on the port (spec/30_encoding.md R65). -/

namespace Sys2Proof.Machine

/-- The 2-bit code on `rsp_status` (R65). -/
def Status.code : Status → BitVec 2
  | .ok => 0#2
  | .error .outOfRange => 1#2
  | .error .invalidPrescaler => 2#2
  | .error .illegalOp => 3#2

/-- The names of R65, as R75 writes them. -/
def Status.name : Status → String
  | .ok => "OK"
  | .error .outOfRange => "OutOfRange"
  | .error .invalidPrescaler => "InvalidPrescaler"
  | .error .illegalOp => "IllegalOp"

end Sys2Proof.Machine
end

