-- ==== Sys2Proof/Machine/HostSide.lean ====
section
/-! DEFINITION. What the host keeps and writes down beside the block: the loop-back image of R73 (spec/30_encoding.md) and the
written forms of a response (R75). The block never sees either. -/

namespace Sys2Proof.Machine

/-- Whether a command word is a SOLVF, SOLVP, SETPS or SETCV command, whose OK response is a TimerConfig image (R66). -/
def answersImage (cmd : Cmd) : Bool :=
  match decode cmd with
  | .ok (.solvf _) => true
  | .ok (.solvp _) => true
  | .ok (.setps _) => true
  | .ok (.setcv _) => true
  | .ok (.rdf _ _) => false
  | .ok (.rdp _ _) => false
  | .error _ => false

/-- The image the host loops back after a command and its response: "the `data` of the most recent response with status
OK from SOLVF, SOLVP, SETPS or SETCV" (R73). -/
def nextImage (image : Option Data) (cmd : Cmd) (r : Response) : Option Data :=
  if answersImage cmd && decide (r.status = .ok) then some r.data else image

/-- One digit, in capitals above 9. -/
def digitChar (n : Nat) : Char := Char.ofNat (if n < 10 then 48 + n else 55 + n)

/-- `k` digits of `n` in a base, most significant first. -/
def digitsIn (base : Nat) : Nat → Nat → List Char
  | 0, _ => []
  | k + 1, n => digitsIn base k (n / base) ++ [digitChar (n % base)]

/-- Drop leading zeros, but not the last digit. -/
def dropLeadingZeros : List Char → List Char
  | '0' :: d :: rest => dropLeadingZeros (d :: rest)
  | ds => ds

/-- A number below 10^20 in decimal digits. -/
def decimalDigits (n : Nat) : List Char := dropLeadingZeros (digitsIn 10 20 n)

/-- The exact decimal value of a positive normal binary64 number below 10^20, with at least one digit after the point. -/
def decimalValue (b : Data) : List Char :=
  let m := 2 ^ 52 + f64FractionField b
  let e := f64ExponentField b
  let k := 1075 - e
  let n := m * 2 ^ (e - 1075) * 5 ^ k
  let fraction := (dropLeadingZeros (digitsIn 10 k (n % 10 ^ k)).reverse).reverse
  decimalDigits (n / 10 ^ k) ++ ['.'] ++ (if fraction = [] then ['0'] else fraction)

/-- A response as R75 writes it: `OK` and 16 hexadecimal digits, or the name of the error. -/
def Response.written (r : Response) : List Char :=
  match r.status with
  | .ok => "OK 0x".toList ++ digitsIn 16 16 r.data.toNat
  | .error e => (Status.error e).name.toList

/-- A response of RDF or RDP, also as the decimal value (R75). -/
def Response.writtenOfReader (r : Response) : List Char :=
  match r.status with
  | .ok => r.written ++ " = ".toList ++ decimalValue r.data
  | .error _ => r.written

/-- A TimerConfig image as `(o, c)` (R75). -/
def writtenImage (d : Data) : List Char :=
  ['('] ++ decimalDigits (d.extractLsb' 16 3).toNat ++ [',', ' '] ++ decimalDigits (d.extractLsb' 0 16).toNat ++ [')']

end Sys2Proof.Machine
end

