-- ==== Sys2Proof/Machine/Ports.lean ====
section
/-! DEFINITION. The ports of the block as functions of the state (spec/10_state.md R28, R29). `clk` has no meaning in the
model: no rule depends on it (R28). The request ports show what the host drives at the start of the coming step, the
response and configuration ports what the block drives after the latest one. -/

namespace Sys2Proof.Machine

/-- `cfg_presc`, always equal to `CFG.PRESC` (R28, R29). -/
def State.cfgPresc (s : State) : BitVec 3 := s.presc

/-- `cfg_cmp`, always equal to `CFG.CMP` (R28, R29). -/
def State.cfgCmp (s : State) : BitVec 16 := s.cmp

/-- `rsp_valid` (R28). -/
def State.rspValid (s : State) : Bool := s.rsp.isSome

/-- `rsp_status` while `rsp_valid` = 1 (R28, R64); none while no response is presented. -/
def State.rspStatus (s : State) : Option (BitVec 2) := s.rsp.map fun r => r.status.code

/-- `rsp_data` while `rsp_valid` = 1 (R28, R64); none while no response is presented. -/
def State.rspData (s : State) : Option Data := s.rsp.map fun r => r.data

/-- `rst` at the start of the coming step (R28, R200). -/
def State.rst (s : State) : Bool :=
  match s.host with
  | .reset _ :: _ => true
  | .idle :: _ => false
  | .command _ :: _ => false
  | .commandThenReset _ :: _ => false
  | [] => false

/-- The command word the host presents at the start of the coming step, none while `req_valid` = 0 (R28). -/
def State.presented (s : State) : Option Cmd :=
  match s.host with
  | .command cmd :: _ => some cmd
  | .commandThenReset cmd :: _ => some cmd
  | .reset held :: _ => held
  | .idle :: _ => none
  | [] => none

/-- `req_valid` (R28). -/
def State.reqValid (s : State) : Bool := s.presented.isSome

/-- `req_op` = `cmd[34:32]` of the presented command (R28, R60). -/
def State.reqOp (s : State) : Option Op := s.presented.map opField

/-- `req_arg` = `cmd[31:0]` of the presented command (R28, R60). -/
def State.reqArg (s : State) : Option Arg := s.presented.map argField

/-- `req_ready`: between two steps every accepted command has been answered, so the block can accept the next
(R205), except while `rst` is asserted (R201; log 5). -/
def State.reqReady (s : State) : Bool := !s.rst

/-- The command accepted in the coming step: `req_valid` and `req_ready` are both 1 (R28). -/
def State.accepted (s : State) : Option Cmd := if s.reqReady then s.presented else none

end Sys2Proof.Machine
end

