-- ==== Sys2Proof/Safety.lean ====
section
/-! DEFINITION. What counts as a legal state and a legal use of the block, and the exact quantities the readers answer with,
in the terms the statements use. -/

namespace Sys2Proof.Machine

/-- A response word is legal when an error carries data 0 (spec/30_encoding.md R64). -/
def Response.Legal (r : Response) : Prop := r.status ≠ .ok → r.data = 0#64

/-- The invariant of reachable states: `CFG.PRESC` is in 0..5 (spec/10_state.md R23), and the response port presents
only legal response words. -/
def State.Inv (s : State) : Prop := s.presc.toNat ≤ 5 ∧ ∀ r, s.rsp = some r → r.Legal

/-- A configuration with a waveform: its ordinal has a divisor (R90, R202). -/
def State.Configured (s : State) : Prop := 1 ≤ s.presc.toNat ∧ s.presc.toNat ≤ 5

/-- An event that resets the block (R200, R201). -/
def HostEvent.resets : HostEvent → Bool
  | .idle => false
  | .command _ => false
  | .reset _ => true
  | .commandThenReset _ => true

/-- The command word an event presents, if any. -/
def HostEvent.presents : HostEvent → Option Cmd
  | .idle => none
  | .command cmd => some cmd
  | .reset held => held
  | .commandThenReset cmd => some cmd

/-- The host's duty to hold a presented command until it is accepted (R204): after a reset that found a command
presented, the next event presents the same command word. No definition of the step relies on it. -/
def hostKeepsDuty : List HostEvent → Bool
  | .reset (some cmd) :: ev :: rest => decide (ev.presents = some cmd) && hostKeepsDuty (ev :: rest)
  | _ :: rest => hostKeepsDuty rest
  | [] => true

/-- The command succeeds and leaves `CFG` = (o, c): it answers OK with the image `data[15:0]` = c, `data[18:16]` = o
(R66) and changes nothing else. -/
def Configures (i : Instr) (s : State) (o c : Nat) : Prop :=
  exec i s = .next { s with
    presc := BitVec.ofNat 3 o
    cmp := BitVec.ofNat 16 c
    rsp := some { status := .ok, data := BitVec.ofNat 64 (65536 * o + c) } }

/-- The command succeeds, answers OK with `d`, and writes no register. -/
def Answers (i : Instr) (s : State) (d : Data) : Prop :=
  exec i s = .next { s with rsp := some { status := .ok, data := d } }

/-- The command answers the error `e` with data 0 and writes no register (R175). -/
def FailsWith (i : Instr) (s : State) (e : CmdError) : Prop :=
  exec i s = .next { s with rsp := some { status := .error e, data := 0#64 } }

/-- `FREQ(o, c)`, the exact frequency in hertz (R132). -/
def FREQ (p : Prescaler) (c : Half) : Rat := 8000000 / ((c.toNat + 1) * p.div)

/-- `PER(o, c)`, the exact period in microseconds (R135). -/
def PER (p : Prescaler) (c : Half) : Rat := (c.toNat + 1) * p.div / 8

/-- A positive normal binary64 pattern (R68, R140). -/
def f64PositiveNormal (b : Data) : Prop :=
  b.extractLsb' 63 1 = 0#1 ∧ 1 ≤ f64ExponentField b ∧ f64ExponentField b ≤ 2046

/-- The number a positive normal binary64 pattern stands for: bias 1023, 52 fraction bits (R68). -/
def f64Value (b : Data) : Rat :=
  ((2 ^ 52 + f64FractionField b : Nat) : Rat) * (2 : Rat) ^ ((f64ExponentField b : Int) - 1075)

end Sys2Proof.Machine
end

