-- ==== Sys2Proof/Certificates/Slice0/Obligations.lean ====
section
/-! DEFINITION. The statements for the provers. The two model conventions they all share are named in NOTES.md: `rsp` is the
response port after the step (log 2) and `host` is the model's own list of coming host events (log 1); `{ s with … }` says
that every field not named is unchanged. -/

open Sys2Proof Sys2Proof.Machine

/-! ### Reset -/

/-- R31: what reset leaves, in the registers and on the ports. -/
def Obligations.ResetLeavesSpecValues : Prop :=
  State.reset.presc = 0#3 ∧ State.reset.cmp = 0#16 ∧ State.reset.cfgPresc = 0#3 ∧ State.reset.cfgCmp = 0#16 ∧
  State.reset.rsp = none ∧ State.reset.rspValid = false

/-- R200, R201: from any state, a reset between commands or inside an open command leaves `reset_state` and no response;
while `rst` is asserted no command is accepted. -/
def Obligations.ResetTakesEffectFromAnyState : Prop :=
  (∀ (s : State) (ev : HostEvent) (rest : List HostEvent), s.host = ev :: rest → ev.resets = true →
    ∃ t, step s = .next t ∧ t.presc = State.reset.presc ∧ t.cmp = State.reset.cmp ∧ t.rsp = none) ∧
  (∀ (s : State) (held : Option Cmd) (rest : List HostEvent), s.host = .reset held :: rest →
    s.reqReady = false ∧ s.accepted = none)

/-- R203, with R200: the first command after a reset. -/
def Obligations.FirstCommandAfterReset : Prop :=
  (∀ f : Arg, 1 ≤ f.toNat → f.toNat ≤ 8000000 → ∃ o c, 1 ≤ o ∧ o ≤ 4 ∧ c < 65536 ∧ Configures (.solvf f) State.reset o c) ∧
  (∀ p : Arg, 1 ≤ p.toNat → p.toNat ≤ 8000000 → ∃ o c, 2 ≤ o ∧ o ≤ 5 ∧ c < 65536 ∧ Configures (.solvp p) State.reset o c) ∧
  (∀ (o c : Half), 1 ≤ o.toNat → o.toNat ≤ 5 →
    (∃ d, Answers (.rdf o c) State.reset d) ∧ (∃ d, Answers (.rdp o c) State.reset d)) ∧
  FailsWith (.rdf 0#16 0#16) State.reset .invalidPrescaler ∧ FailsWith (.rdp 0#16 0#16) State.reset .invalidPrescaler ∧
  (∀ n : Arg, 1 ≤ n.toNat → n.toNat ≤ 5 → Configures (.setps n) State.reset n.toNat 0) ∧
  (∀ v : Arg, v.toNat ≤ 65535 → Configures (.setcv v) State.reset 0 v.toNat) ∧
  (∀ (i : Instr) (t : State) (e : CmdError) (d : Data), exec i State.reset = .next t → t.rsp = some ⟨.error e, d⟩ →
    d = 0#64 ∧ t.presc = 0#3 ∧ t.cmp = 0#16)

/-! ### Encoding -/

/-- Words written out from R60, R62, R67 decode to the commands they stand for (95_test_vectors.md V-SOLVF, V-SOLVP, V-RD,
V-SET, V-ILL). -/
def Obligations.SampleWordsDecode : Prop :=
  decode 0x1000001F4#35 = .ok (.solvf 500#32) ∧ decode 0x2000007D0#35 = .ok (.solvp 2000#32) ∧
  decode 0x300013E7F#35 = .ok (.rdf 1#16 15999#16) ∧ decode 0x40005FFFF#35 = .ok (.rdp 5#16 65535#16) ∧
  decode 0x500000005#35 = .ok (.setps 5#32) ∧ decode 0x60000FFFF#35 = .ok (.setcv 65535#32) ∧
  decode 0x0000001F4#35 = .error (.reservedOpcode 0#3) ∧ decode 0x7FFFFFFFF#35 = .error (.reservedOpcode 7#3)

/-- R74: the decoding procedure on every command word `op ‖ arg`. -/
def Obligations.DecodingProcedureOnEveryWord : Prop :=
  ∀ (op : Op) (arg : Arg),
    decode (op ++ arg : BitVec 35) =
      (if op = 1#3 then .ok (.solvf arg)
       else if op = 2#3 then .ok (.solvp arg)
       else if op = 3#3 then .ok (.rdf (arg.extractLsb' 16 16) (arg.extractLsb' 0 16))
       else if op = 4#3 then .ok (.rdp (arg.extractLsb' 16 16) (arg.extractLsb' 0 16))
       else if op = 5#3 then .ok (.setps arg)
       else if op = 6#3 then .ok (.setcv arg)
       else .error (.reservedOpcode op))

/-- Decode of encode, for every command with every operand. -/
def Obligations.DecodeOfEncodeIsTheCommand : Prop :=
  ∀ i : Instr, decode (encode i) = .ok i

/-- Encode of decode: every word that decodes is the encoding of its command, so no bit of it is ignored (R63, R70). -/
def Obligations.EncodeOfDecodeIsTheWord : Prop :=
  ∀ (cmd : Cmd) (i : Instr), decode cmd = .ok i → encode i = cmd

/-- R67: the operand of RDF and RDP, its validity, and the loop-back of a TimerConfig image. -/
def Obligations.ReaderOperandAndLoopBack : Prop :=
  (∀ (o c : Half), decode (0b011#3 ++ (o ++ c : BitVec 32) : BitVec 35) = .ok (.rdf o c) ∧
    decode (0b100#3 ++ (o ++ c : BitVec 32) : BitVec 35) = .ok (.rdp o c)) ∧
  (∀ (o c : Half) (s : State), ¬(1 ≤ o.toNat ∧ o.toNat ≤ 5) →
    FailsWith (.rdf o c) s .invalidPrescaler ∧ FailsWith (.rdp o c) s .invalidPrescaler) ∧
  (∀ (o c : Half) (s : State), 1 ≤ o.toNat → o.toNat ≤ 5 →
    (∃ d, Answers (.rdf o c) s d) ∧ (∃ d, Answers (.rdp o c) s d)) ∧
  (∀ (cmd : Cmd) (s t : State) (rest : List HostEvent) (d : Data), s.host = .command cmd :: rest → answersImage cmd = true →
    step s = .next t → t.rsp = some ⟨.ok, d⟩ →
    decode (0b011#3 ++ d.extractLsb' 0 32 : BitVec 35) = .ok (.rdf (t.presc.zeroExtend 16) t.cmp) ∧
    decode (0b100#3 ++ d.extractLsb' 0 32 : BitVec 35) = .ok (.rdp (t.presc.zeroExtend 16) t.cmp))

/-- R72, R73: a statement assembles exactly when its operands are in range (and, for `@`, an image is known), to the word of
its row. -/
def Obligations.AssemblerEncodesExactlyInRange : Prop :=
  ∀ (image : Option Data) (n o c : Nat),
    assemble image (.solvf n) = (if n < 2 ^ 32 then some (0b001#3 ++ BitVec.ofNat 32 n : BitVec 35) else none) ∧
    assemble image (.solvp n) = (if n < 2 ^ 32 then some (0b010#3 ++ BitVec.ofNat 32 n : BitVec 35) else none) ∧
    assemble image (.rdf o c) =
      (if o < 2 ^ 16 ∧ c < 2 ^ 16 then some (0b011#3 ++ BitVec.ofNat 32 (o * 65536 + c) : BitVec 35) else none) ∧
    assemble image (.rdp o c) =
      (if o < 2 ^ 16 ∧ c < 2 ^ 16 then some (0b100#3 ++ BitVec.ofNat 32 (o * 65536 + c) : BitVec 35) else none) ∧
    assemble image (.setps n) = (if n < 2 ^ 32 then some (0b101#3 ++ BitVec.ofNat 32 n : BitVec 35) else none) ∧
    assemble image (.setcv n) = (if n < 2 ^ 32 then some (0b110#3 ++ BitVec.ofNat 32 n : BitVec 35) else none) ∧
    assemble image (.word n) = (if n < 2 ^ 35 then some (BitVec.ofNat 35 n) else none) ∧
    assemble image .rdfAt = image.map (fun d => (0b011#3 ++ d.extractLsb' 0 32 : BitVec 35)) ∧
    assemble image .rdpAt = image.map (fun d => (0b100#3 ++ d.extractLsb' 0 32 : BitVec 35))

/-! ### The response -/

/-- R65: the status codes and their names. -/
def Obligations.StatusCodeTable : Prop :=
  Status.ok.code = 0#2 ∧ (Status.error .outOfRange).code = 1#2 ∧ (Status.error .invalidPrescaler).code = 2#2 ∧
  (Status.error .illegalOp).code = 3#2 ∧ Status.ok.name = "OK" ∧ (Status.error .outOfRange).name = "OutOfRange" ∧
  (Status.error .invalidPrescaler).name = "InvalidPrescaler" ∧ (Status.error .illegalOp).name = "IllegalOp"

/-- R66: the TimerConfig image of every successful SOLVF, SOLVP, SETPS and SETCV shows the state after the command. -/
def Obligations.ConfigImageShowsStateAfter : Prop :=
  (∀ (i : Instr) (s t : State) (d : Data),
    ((∃ f, i = .solvf f) ∨ (∃ p, i = .solvp p) ∨ (∃ n, i = .setps n) ∨ (∃ v, i = .setcv v)) →
    exec i s = .next t → t.rsp = some ⟨.ok, d⟩ →
    d.extractLsb' 0 16 = t.cmp ∧ d.extractLsb' 16 3 = t.presc ∧ d.extractLsb' 19 45 = 0#45) ∧
  pack 1#3 15999#16 = 0x0000000000013E7F#64

/-- R175: an error response writes nothing, carries data 0 and its code, and leaves the block ready. -/
def Obligations.ErrorResponseWritesNothing : Prop :=
  ∀ (s : State) (cmd : Cmd) (rest : List HostEvent) (t : State) (e : CmdError) (d : Data),
    s.host = .command cmd :: rest → step s = .next t → t.rsp = some ⟨.error e, d⟩ →
    d = 0#64 ∧ t.rspStatus = some (Status.error e).code ∧ t.presc = s.presc ∧ t.cmp = s.cmp ∧
    t.cfgPresc = s.cfgPresc ∧ t.cfgCmp = s.cfgCmp ∧ t.reqReady = !t.rst

/-- R174: which command word raises which error, exactly. -/
def Obligations.ErrorCauseTable : Prop :=
  ∀ (s : State) (op : Op) (arg : Arg) (rest : List HostEvent), s.host = .command (op ++ arg : BitVec 35) :: rest →
    ∃ t st d, step s = .next t ∧ t.rsp = some ⟨st, d⟩ ∧
      (st = .error .outOfRange ↔
        ((op = 1#3 ∨ op = 2#3) ∧ (arg.toNat = 0 ∨ arg.toNat > 8000000)) ∨
        (op = 5#3 ∧ (arg.toNat = 0 ∨ arg.toNat ≥ 6)) ∨ (op = 6#3 ∧ arg.toNat ≥ 65536)) ∧
      (st = .error .invalidPrescaler ↔
        (op = 3#3 ∨ op = 4#3) ∧ ((arg.extractLsb' 16 16).toNat = 0 ∨ (arg.extractLsb' 16 16).toNat ≥ 6)) ∧
      (st = .error .illegalOp ↔ op = 0#3 ∨ op = 7#3)

/-- R69: the reserved opcodes. -/
def Obligations.ReservedOpcodesAnswerIllegalOp : Prop :=
  (∀ (s : State) (arg : Arg) (rest : List HostEvent) (op : Op), op = 0#3 ∨ op = 7#3 →
    s.host = .command (op ++ arg : BitVec 35) :: rest →
    step s = .next { s with rsp := some ⟨.error .illegalOp, 0#64⟩, host := rest }) ∧
  (Status.error .illegalOp).code = 3#2 ∧ decode 0#35 = .error (.reservedOpcode 0#3)

/-! ### The step -/

/-- A step runs the decoded command (R10, R46): it takes the host's next event and does exactly what exec does. -/
def Obligations.StepExecutesPresentedCommand : Prop :=
  ∀ (s : State) (cmd : Cmd) (rest : List HostEvent) (i : Instr),
    s.host = .command cmd :: rest → decode cmd = .ok i → step s = exec i { s with host := rest }

/-- A command word presented next is the one the next step runs, with the state otherwise as it is (log 1). -/
def Obligations.PresentedWordRunsNext : Prop :=
  ∀ (s : State) (i : Instr),
    step (s.withFetchWord 35 (encode i).toNat) = exec i s ∧ step (s.withFetchWord 40 (encode i).toNat) = exec i s

/-- With no command presented the block waits (R26). That no response is presented then is the model's choice, log 2. -/
def Obligations.WaitingChangesNoRegister : Prop :=
  ∀ s : State, (s.host = [] → step s = .next { s with rsp := none }) ∧
    (∀ rest, s.host = .idle :: rest → step s = .next { s with rsp := none, host := rest })

/-- R8, R28, R64, R210: every step from every state has a next state, consumes one host event, and presents a response
exactly when it served a command. The list of events is the model's own, log 1; that a response is gone after a step that served
no command is its choice, log 2. -/
def Obligations.EveryStepAnswersExactlyItsCommand : Prop :=
  ∀ s : State, ∃ t, step s = .next t ∧ t.host = s.host.tail ∧
    (t.rspValid = true ↔ ∃ cmd rest, s.host = .command cmd :: rest)

/-- R46: what the block does with a host event does not depend on the host's later events. -/
def Obligations.LaterEventsDoNotInterfere : Prop :=
  ∀ (s t : State) (ev : HostEvent) (rest : List HostEvent), step { s with host := [ev] } = .next t →
    step { s with host := ev :: rest } = .next { t with host := rest }

/-- R28, R201, R205: an accepted command is the one on the request ports; it gets exactly one response, in the step that
accepts it, unless a reset takes effect while it is open, and then none. -/
def Obligations.AcceptedCommandHasOneResponse : Prop :=
  ∀ (s : State) (cmd : Cmd), s.accepted = some cmd →
    s.reqValid = true ∧ s.reqReady = true ∧ s.reqOp = some (cmd.extractLsb' 32 3) ∧ s.reqArg = some (cmd.extractLsb' 0 32) ∧
    ∃ t, step s = .next t ∧ t.host = s.host.tail ∧
      ((∃ rest, s.host = .command cmd :: rest) → ∃ st d, t.rspStatus = some st ∧ t.rspData = some d ∧ (st ≠ 0#2 → d = 0#64)) ∧
      ((¬∃ rest, s.host = .command cmd :: rest) → t.rspValid = false ∧ t.cfgPresc = 0#3 ∧ t.cfgCmp = 0#16)

/-- R204: a host that holds a presented command through a reset presents it again afterwards (the duty is the host's, log 14;
the block's step does not rely on it). -/
def Obligations.HeldCommandIsPresentedAfterReset : Prop :=
  ∀ (s t : State) (cmd : Cmd) (ev : HostEvent) (rest : List HostEvent), s.host = .reset (some cmd) :: ev :: rest →
    hostKeepsDuty s.host = true → step s = .next t → t.presented = some cmd ∧ t.rsp = none ∧ hostKeepsDuty t.host = true

/-- R29, R206: a solver command changes both configuration ports in one step, or neither. -/
def Obligations.SolverUpdatesBothPortsAtOnce : Prop :=
  ∀ (s t : State) (cmd : Cmd) (rest : List HostEvent) (x : Arg), s.host = .command cmd :: rest → step s = .next t →
    (decode cmd = .ok (.solvf x) →
      (1 ≤ x.toNat ∧ x.toNat ≤ 8000000 ∧ t.cfgPresc = (selF x.toNat).ordinal ∧
        t.cfgCmp.toNat + 1 = (2 * (8000000 / (selF x.toNat).div) + x.toNat) / (2 * x.toNat)) ∨
      ((x.toNat < 1 ∨ x.toNat > 8000000) ∧ t.cfgPresc = s.cfgPresc ∧ t.cfgCmp = s.cfgCmp ∧ t.rspStatus = some 1#2)) ∧
    (decode cmd = .ok (.solvp x) →
      (1 ≤ x.toNat ∧ x.toNat ≤ 8000000 ∧ t.cfgPresc = (selP x.toNat).ordinal ∧
        t.cfgCmp.toNat + 1 = x.toNat * 8 / (selP x.toNat).div) ∨
      ((x.toNat < 1 ∨ x.toNat > 8000000) ∧ t.cfgPresc = s.cfgPresc ∧ t.cfgCmp = s.cfgCmp ∧ t.rspStatus = some 1#2))

/-- R73: after a successful SOLVF, SOLVP, SETPS or SETCV, `RDF @` and `RDP @` assemble to the reader of the new configuration;
any other response leaves the looped-back image as it was. -/
def Obligations.LoopBackReadsLatestConfiguration : Prop :=
  ∀ (image : Option Data) (cmd : Cmd) (s t : State) (rest : List HostEvent) (r : Response),
    s.host = .command cmd :: rest → step s = .next t → t.rsp = some r →
    (answersImage cmd = true → r.status = .ok →
      assemble (nextImage image cmd r) .rdfAt = some (encode (.rdf (t.presc.zeroExtend 16) t.cmp)) ∧
      assemble (nextImage image cmd r) .rdpAt = some (encode (.rdp (t.presc.zeroExtend 16) t.cmp))) ∧
    (answersImage cmd = false ∨ r.status ≠ .ok → nextImage image cmd r = image)

/-- R27: no status is latched: what the response port presented before has no influence on any step. -/
def Obligations.ResponsePortIsNotRead : Prop :=
  ∀ (s : State) (r : Option Response), step { s with rsp := r } = step s

/-- R177: after a failing command the next step is what it would have been without that command. -/
def Obligations.FailedCommandLeavesNoTrace : Prop :=
  ∀ (s t : State) (cmd : Cmd) (rest : List HostEvent) (e : CmdError) (d : Data),
    s.host = .command cmd :: rest → step s = .next t → t.rsp = some ⟨.error e, d⟩ →
    step t = step { s with host := rest }

/-! ### Invariants -/

/-- The invariant holds at reset. -/
def Obligations.InvHoldsAtReset : Prop := State.reset.Inv

/-- R23: every step keeps the invariant. -/
def Obligations.EveryStepKeepsInv : Prop :=
  ∀ s t : State, s.Inv → step s = .next t → t.Inv

/-- R23: a configuration, once there, is lost only by a reset; and a successful SOLVF, SOLVP or SETPS gives one. -/
def Obligations.OrdinalZeroOnlyBeforeConfiguration : Prop :=
  (∀ s t : State, s.Configured → step s = .next t → (∀ ev rest, s.host = ev :: rest → ev.resets = false) → t.Configured) ∧
  (∀ (i : Instr) (s t : State) (d : Data), ((∃ f, i = .solvf f) ∨ (∃ p, i = .solvp p) ∨ (∃ n, i = .setps n)) →
    exec i s = .next t → t.rsp = some ⟨.ok, d⟩ → t.Configured)

/-! ### The selector -/

/-- R90: the divisor table, undefined at 0 and from 6 on; every divisor is a power of two. -/
def Obligations.DivisorTable : Prop :=
  DIV 0 = none ∧ DIV 1 = some (2 ^ 0) ∧ DIV 2 = some (2 ^ 3) ∧ DIV 3 = some (2 ^ 6) ∧ DIV 4 = some (2 ^ 8) ∧
  DIV 5 = some (2 ^ 10) ∧ ∀ o, 6 ≤ o → DIV o = none

/-- R92 and R94: the two ladders on every 32-bit input, the dead rungs among them. -/
def Obligations.LaddersFollowTheirTables : Prop :=
  ∀ x : Arg,
    (x.toNat ≥ 123 → selF x.toNat = .by1) ∧ (16 ≤ x.toNat → x.toNat < 123 → selF x.toNat = .by8) ∧
    (2 ≤ x.toNat → x.toNat < 16 → selF x.toNat = .by64) ∧ (x.toNat = 1 → selF x.toNat = .by256) ∧
    (x.toNat < 1 → selF x.toNat = .by1024) ∧
    (x.toNat = 0 → selP x.toNat = .by1) ∧ (1 ≤ x.toNat → x.toNat ≤ 65536 → selP x.toNat = .by8) ∧
    (65536 < x.toNat → x.toNat ≤ 524288 → selP x.toNat = .by64) ∧
    (524288 < x.toNat → x.toNat ≤ 2097152 → selP x.toNat = .by256) ∧ (2097152 < x.toNat → selP x.toNat = .by1024)

/-- R96: in frequency mode the ladder picks the least divisor whose compare value, rounded half away from zero, fits 16 bits. -/
def Obligations.FrequencyLadderPicksLeastFit : Prop :=
  ∀ f : Nat, 1 ≤ f → f ≤ 8000000 →
    (16000000 + (selF f).div * f) / (2 * ((selF f).div * f)) - 1 ≤ 65535 ∧
    ∀ q : Prescaler, q.div < (selF f).div → 65535 < (16000000 + q.div * f) / (2 * (q.div * f)) - 1

/-- R97: in period mode the ladder's choice fits 16 bits; divisor 1 is never chosen though it fits every period up to 8192;
and a smaller divisor from 8 on would fit for exactly 7 + 31 periods. -/
def Obligations.PeriodLadderFitsButIsNotLeast : Prop :=
  ∀ p : Nat, 1 ≤ p → p ≤ 8000000 →
    p * 8 / (selP p).div - 1 ≤ 65535 ∧ selP p ≠ .by1 ∧ (p * 8 / 1 - 1 ≤ 65535 ↔ p ≤ 8192) ∧
    ∀ q : Prescaler, 8 ≤ q.div → q.div < (selP p).div →
      (p * 8 / q.div - 1 ≤ 65535 ↔
        (q = .by64 ∧ 524289 ≤ p ∧ p ≤ 524295) ∨ (q = .by256 ∧ 2097153 ≤ p ∧ p ≤ 2097183))

/-! ### The solvers -/

/-- R111: SOLVF, its encoding, its error, its result on its whole domain, its corner cases and its worked example. -/
def Obligations.SolvfFollowsItsRule : Prop :=
  (∀ f : Arg, decode (0b001#3 ++ f : BitVec 35) = .ok (.solvf f)) ∧
  (∀ (f : Arg) (s : State), f.toNat < 1 ∨ f.toNat > 8000000 → FailsWith (.solvf f) s .outOfRange) ∧
  (∀ (f : Arg) (s : State), 1 ≤ f.toNat → f.toNat ≤ 8000000 →
    ∃ o A c : Nat,
      ((o = 1 ∧ A = 8000000 ∧ 123 ≤ f.toNat) ∨ (o = 2 ∧ A = 1000000 ∧ 16 ≤ f.toNat ∧ f.toNat < 123) ∨
        (o = 3 ∧ A = 125000 ∧ 2 ≤ f.toNat ∧ f.toNat < 16) ∨ (o = 4 ∧ A = 31250 ∧ f.toNat = 1)) ∧
      c + 1 = (2 * A + f.toNat) / (2 * f.toNat) ∧ c ≤ 65040 ∧ Configures (.solvf f) s o c) ∧
  (∀ (f : Arg) (s : State), 5333334 ≤ f.toNat → f.toNat ≤ 8000000 → Configures (.solvf f) s 1 0) ∧
  (∀ s : State, Configures (.solvf 5333333#32) s 1 1 ∧ Configures (.solvf 123#32) s 1 65040 ∧
    Configures (.solvf 122#32) s 2 8196 ∧ Configures (.solvf 1#32) s 4 31249 ∧ Configures (.solvf 500#32) s 1 15999) ∧
  (0b001#3 ++ 500#32 : BitVec 35) = 0x1000001F4#35

/-- R116: SOLVP, its encoding, its error, its result on its whole domain, its corner cases and its worked example. -/
def Obligations.SolvpFollowsItsRule : Prop :=
  (∀ p : Arg, decode (0b010#3 ++ p : BitVec 35) = .ok (.solvp p)) ∧
  (∀ (p : Arg) (s : State), p.toNat < 1 ∨ p.toNat > 8000000 → FailsWith (.solvp p) s .outOfRange) ∧
  (∀ (p : Arg) (s : State), 1 ≤ p.toNat → p.toNat ≤ 8000000 →
    ∃ o D c : Nat,
      ((o = 2 ∧ D = 8 ∧ p.toNat ≤ 65536) ∨ (o = 3 ∧ D = 64 ∧ 65536 < p.toNat ∧ p.toNat ≤ 524288) ∨
        (o = 4 ∧ D = 256 ∧ 524288 < p.toNat ∧ p.toNat ≤ 2097152) ∨ (o = 5 ∧ D = 1024 ∧ 2097152 < p.toNat)) ∧
      c + 1 = p.toNat * 8 / D ∧ c ≤ 65535 ∧ Configures (.solvp p) s o c) ∧
  (∀ s : State, Configures (.solvp 1#32) s 2 0 ∧ Configures (.solvp 65536#32) s 2 65535 ∧
    Configures (.solvp 65537#32) s 3 8191 ∧ Configures (.solvp 524288#32) s 3 65535 ∧
    Configures (.solvp 524289#32) s 4 16383 ∧ Configures (.solvp 2097152#32) s 4 65535 ∧
    Configures (.solvp 2097153#32) s 5 16383 ∧ Configures (.solvp 8000000#32) s 5 62499 ∧
    Configures (.solvp 2000#32) s 2 1999) ∧
  (0b010#3 ++ 2000#32 : BitVec 35) = 0x2000007D0#35

/-- R114, R118: the range of the compare value on every rung of both solvers. -/
def Obligations.SolverResultsByRung : Prop :=
  (∀ (f : Arg) (s : State), 1 ≤ f.toNat → f.toNat ≤ 8000000 → ∃ o c : Nat, Configures (.solvf f) s o c ∧
    (123 ≤ f.toNat → o = 1 ∧ c ≤ 65040) ∧ (16 ≤ f.toNat → f.toNat ≤ 122 → o = 2 ∧ 8196 ≤ c ∧ c ≤ 62499) ∧
    (2 ≤ f.toNat → f.toNat ≤ 15 → o = 3 ∧ 8332 ≤ c ∧ c ≤ 62499) ∧ (f.toNat = 1 → o = 4 ∧ c = 31249)) ∧
  (∀ (p : Arg) (s : State), 1 ≤ p.toNat → p.toNat ≤ 8000000 → ∃ o c : Nat, Configures (.solvp p) s o c ∧
    (p.toNat ≤ 65536 → o = 2 ∧ c = p.toNat - 1) ∧
    (65537 ≤ p.toNat → p.toNat ≤ 524288 → o = 3 ∧ c = p.toNat / 8 - 1 ∧ 8191 ≤ c ∧ c ≤ 65535) ∧
    (524289 ≤ p.toNat → p.toNat ≤ 2097152 → o = 4 ∧ c = p.toNat / 32 - 1 ∧ 16383 ≤ c ∧ c ≤ 65535) ∧
    (2097153 ≤ p.toNat → o = 5 ∧ c = p.toNat / 128 - 1 ∧ 16383 ≤ c ∧ c ≤ 62499))

/-- R7: `round_haz(a / b)` is `floor(a / b + 1/2)`. -/
def Obligations.RoundHazIsFloorOfHalfMore : Prop :=
  ∀ a b : Nat, 0 < b → (roundHaz a b : Int) = ⌊(a : Rat) / b + 1 / 2⌋

/-- R113: rounding the binary64 quotient half away from zero gives the integer formula on the whole domain, and a tie occurs
for exactly six frequencies. -/
def Obligations.SolverRoundingEqualsFloatQuotient : Prop :=
  ∀ f : Nat, 1 ≤ f → f ≤ 8000000 →
    ⌊f64Value (f64 (8000000 / (selF f).div) f) + 1 / 2⌋ = ((cmpF (selF f) f + 1 : Nat) : Int) ∧
    ((∃ k : Nat, 2 * (8000000 / (selF f).div) = (2 * k + 1) * f) ↔
      f = 1024 ∨ f = 5120 ∨ f = 25600 ∨ f = 128000 ∨ f = 640000 ∨ f = 3200000)

/-- R115, R139: the frequency of the configuration SOLVF leaves is within f / (2 * (c + 1)) of the request, and equal to it
exactly when f divides A(o). -/
def Obligations.SolvfAccuracy : Prop :=
  ∀ (f : Arg) (s t : State), 1 ≤ f.toNat → f.toNat ≤ 8000000 → exec (.solvf f) s = .next t →
    ∃ p : Prescaler, t.presc = p.ordinal ∧ p = selF f.toNat ∧
      |FREQ p t.cmp - (f.toNat : Rat)| * (2 * (t.cmp.toNat + 1)) ≤ f.toNat ∧
      (FREQ p t.cmp = f.toNat ↔ f.toNat ∣ 8000000 / p.div)

/-- R119, R139: the period of the configuration SOLVP leaves is the request rounded down to a multiple of DIV(o) / 8, and RDP
of that configuration answers exactly that number. -/
def Obligations.SolvpTruncatesAndReadsBack : Prop :=
  ∀ (p : Arg) (s t : State), 1 ≤ p.toNat → p.toNat ≤ 8000000 → exec (.solvp p) s = .next t →
    ∃ q : Prescaler, t.presc = q.ordinal ∧ q = selP p.toNat ∧
      PER q t.cmp = p.toNat - ((p.toNat * 8 % q.div : Nat) : Rat) / 8 ∧
      PER q t.cmp ≤ p.toNat ∧ (p.toNat : Rat) < PER q t.cmp + q.div / 8 ∧
      ∃ d, Answers (.rdp (t.presc.zeroExtend 16) t.cmp) t d ∧ f64Value d = PER q t.cmp

/-- R120: for every frequency that divides 1,000,000, SOLVF of it and SOLVP of the same waveform's period both read back as
exactly that frequency, and the two configurations differ exactly on the first rung. -/
def Obligations.SameWaveformTwoConfigurations : Prop :=
  ∀ (f p : Arg) (s t u : State), f.toNat * p.toNat = 1000000 → exec (.solvf f) s = .next t → exec (.solvp p) s = .next u →
    (∃ a b : Prescaler, t.presc = a.ordinal ∧ u.presc = b.ordinal ∧ FREQ a t.cmp = f.toNat ∧ FREQ b u.cmp = f.toNat) ∧
    (t.presc = u.presc ∧ t.cmp = u.cmp ↔ f.toNat < 123)

/-- R121: the solvers read no state. -/
def Obligations.SolversReadNoState : Prop :=
  ∀ (x : Arg) (s s' t t' : State), (exec (.solvf x) s = .next t → exec (.solvf x) s' = .next t' →
      t.rsp = t'.rsp ∧ (∀ d, t.rsp = some ⟨.ok, d⟩ → t.presc = t'.presc ∧ t.cmp = t'.cmp)) ∧
    (exec (.solvp x) s = .next t → exec (.solvp x) s' = .next t' →
      t.rsp = t'.rsp ∧ (∀ d, t.rsp = some ⟨.ok, d⟩ → t.presc = t'.presc ∧ t.cmp = t'.cmp))

/-! ### The readers -/

/-- R133: RDF, its encoding, its error, its result on every valid operand, its corner cases and its worked example. -/
def Obligations.RdfFollowsItsRule : Prop :=
  (∀ o c : Half, decode (0b011#3 ++ (o ++ c : BitVec 32) : BitVec 35) = .ok (.rdf o c)) ∧
  (∀ (o c : Half) (s : State), o.toNat < 1 ∨ o.toNat > 5 → FailsWith (.rdf o c) s .invalidPrescaler) ∧
  (∀ (o c : Half) (s : State), 1 ≤ o.toNat → o.toNat ≤ 5 →
    ∃ D, DIV o.toNat = some D ∧ Answers (.rdf o c) s (f64 8000000 ((c.toNat + 1) * D))) ∧
  (∀ s : State, Answers (.rdf 1#16 0#16) s 0x415E848000000000#64 ∧ Answers (.rdf 5#16 65535#16) s 0x3FBE848000000000#64 ∧
    Answers (.rdf 5#16 0#16) s 0x40BE848000000000#64 ∧ Answers (.rdf 1#16 2#16) s 0x4144585555555555#64 ∧
    Answers (.rdf 1#16 15999#16) s 0x407F400000000000#64 ∧ Answers (.rdf 2#16 1999#16) s 0x407F400000000000#64) ∧
  (∀ (o o' c c' : Half) (s : State) (D D' : Nat) (d : Data), DIV o.toNat = some D → DIV o'.toNat = some D' →
    (c.toNat + 1) * D = (c'.toNat + 1) * D' → Answers (.rdf o c) s d → Answers (.rdf o' c') s d) ∧
  (∀ (o c : Half) (s : State), 1 ≤ o.toNat → o.toNat ≤ 5 → ∃ d, Answers (.rdf o c) s d ∧
    f64Value 0x3FBE848000000000#64 ≤ f64Value d ∧ f64Value d ≤ f64Value 0x415E848000000000#64) ∧
  f64Value 0x3FBE848000000000#64 = 11920928955078125 / 100000000000000000 ∧ f64Value 0x415E848000000000#64 = 8000000 ∧
  f64Value 0x40BE848000000000#64 = 78125 / 10 ∧ f64Value 0x407F400000000000#64 = 500 ∧
  (0b011#3 ++ (1#16 ++ 15999#16 : BitVec 32) : BitVec 35) = 0x300013E7F#35

/-- R137: RDP, its encoding, its error, its result on every valid operand, its corner cases and its worked example. -/
def Obligations.RdpFollowsItsRule : Prop :=
  (∀ o c : Half, decode (0b100#3 ++ (o ++ c : BitVec 32) : BitVec 35) = .ok (.rdp o c)) ∧
  (∀ (o c : Half) (s : State), o.toNat < 1 ∨ o.toNat > 5 → FailsWith (.rdp o c) s .invalidPrescaler) ∧
  (∀ (o c : Half) (s : State), 1 ≤ o.toNat → o.toNat ≤ 5 →
    ∃ D, DIV o.toNat = some D ∧ Answers (.rdp o c) s (f64 ((c.toNat + 1) * D) 8)) ∧
  (∀ s : State, Answers (.rdp 1#16 0#16) s 0x3FC0000000000000#64 ∧ Answers (.rdp 5#16 65535#16) s 0x4160000000000000#64 ∧
    Answers (.rdp 5#16 0#16) s 0x4060000000000000#64 ∧ Answers (.rdp 1#16 15999#16) s 0x409F400000000000#64) ∧
  (∀ (c : Half) (s : State), ∃ d, Answers (.rdp 2#16 c) s d ∧ f64Value d = c.toNat + 1) ∧
  (∀ (o c : Half) (s : State), 1 ≤ o.toNat → o.toNat ≤ 5 → ∃ d, Answers (.rdp o c) s d ∧
    f64Value 0x3FC0000000000000#64 ≤ f64Value d ∧ f64Value d ≤ f64Value 0x4160000000000000#64) ∧
  f64Value 0x3FC0000000000000#64 = 125 / 1000 ∧ f64Value 0x4160000000000000#64 = 8388608 ∧
  f64Value 0x4060000000000000#64 = 128 ∧ f64Value 0x409F400000000000#64 = 2000 ∧
  (0b100#3 ++ (1#16 ++ 15999#16 : BitVec 32) : BitVec 35) = 0x400013E7F#35

/-- R130: the rounding procedure, for every positive rational N / D with exponent e from -1022 to 52. -/
def Obligations.F64RoundingProcedure : Prop :=
  ∀ (N D : Nat) (e : Int), 0 < N → 0 < D → (2 : Rat) ^ e * D ≤ N → (N : Rat) < (2 : Rat) ^ (e + 1) * D →
    -1022 ≤ e → e ≤ 52 →
    ∃ num m r m' : Nat, (num : Rat) = N * (2 : Rat) ^ (52 - e) ∧ m = num / D ∧ r = num % D ∧
      m' = (if 2 * r > D ∨ (2 * r = D ∧ m % 2 = 1) then m + 1 else m) ∧
      (m' = 2 ^ 53 → f64 N D = (0#1 ++ BitVec.ofInt 11 (e + 1 + 1023) ++ 0#52 : BitVec 64)) ∧
      (m' ≠ 2 ^ 53 → 2 ^ 52 ≤ m' ∧ m' < 2 ^ 53 ∧
        f64 N D = (0#1 ++ BitVec.ofInt 11 (e + 1023) ++ BitVec.ofNat 52 (m' - 2 ^ 52) : BitVec 64))

/-- R68, R130: what RDF answers is the positive normal binary64 number nearest to FREQ(o, c): no other is nearer, and if
another is as near, the one answered has an even fraction. -/
def Obligations.FrequencyIsNearestBinary64 : Prop :=
  ∀ (o c : Half) (p : Prescaler) (s : State), Prescaler.ofOrdinal o.toNat = some p →
    ∃ d, Answers (.rdf o c) s d ∧ f64PositiveNormal d ∧
      ∀ b, f64PositiveNormal b → |f64Value d - FREQ p c| ≤ |f64Value b - FREQ p c| ∧
        (b ≠ d → |f64Value d - FREQ p c| = |f64Value b - FREQ p c| → f64FractionField d % 2 = 0)

/-- R134: RDF is exact precisely when the odd part of c + 1 divides 15625; its relative error is at most 2^-53. -/
def Obligations.FrequencyExactIffOddPartDivides : Prop :=
  ∀ (o c : Half) (p : Prescaler) (s : State), Prescaler.ofOrdinal o.toNat = some p →
    ∃ d, Answers (.rdf o c) s d ∧
      (f64Value d = FREQ p c ↔ ∃ j k : Nat, c.toNat + 1 = 2 ^ j * k ∧ k % 2 = 1 ∧ k ∣ 15625) ∧
      |f64Value d - FREQ p c| ≤ FREQ p c * (2 : Rat) ^ (-53 : Int)

/-- R136, R138: RDP is exact for every valid operand, and FREQ times it is 1,000,000. -/
def Obligations.PeriodIsExact : Prop :=
  ∀ (o c : Half) (p : Prescaler) (s : State), Prescaler.ofOrdinal o.toNat = some p →
    ∃ d, Answers (.rdp o c) s d ∧ f64Value d = PER p c ∧ FREQ p c * f64Value d = 1000000

/-- R131: dividing twice with one rounding each, by c + 1 and then by DIV(o), gives what RDF answers with one rounding. -/
def Obligations.TwoDivisionsRoundOnce : Prop :=
  ∀ (o c : Half) (p : Prescaler) (s : State), Prescaler.ofOrdinal o.toNat = some p →
    ∀ first : Rat, first = f64Value (f64 8000000 (c.toNat + 1)) →
      Answers (.rdf o c) s (f64 first.num.toNat (first.den * p.div))

/-- R140: every result of the readers is a positive normal number in its range. -/
def Obligations.ReaderResultsInRange : Prop :=
  ∀ (o c : Half) (s : State), 1 ≤ o.toNat → o.toNat ≤ 5 →
    (∃ d, Answers (.rdf o c) s d ∧ f64PositiveNormal d ∧ 1019 ≤ f64ExponentField d ∧ f64ExponentField d ≤ 1045 ∧
      8000000 / 67108864 ≤ f64Value d ∧ f64Value d ≤ 8000000) ∧
    (∃ d, Answers (.rdp o c) s d ∧ f64PositiveNormal d ∧ 1020 ≤ f64ExponentField d ∧ f64ExponentField d ≤ 1046 ∧
      1 / 8 ≤ f64Value d ∧ f64Value d ≤ 8388608)

/-- R141: the readers neither read nor write `CFG`; straight after reset the image of `CFG` is refused. -/
def Obligations.ReadersIgnoreConfiguration : Prop :=
  (∀ (o c : Half) (s s' t t' : State), (exec (.rdf o c) s = .next t → exec (.rdf o c) s' = .next t' →
      t.rsp = t'.rsp ∧ t.presc = s.presc ∧ t.cmp = s.cmp) ∧
    (exec (.rdp o c) s = .next t → exec (.rdp o c) s' = .next t' →
      t.rsp = t'.rsp ∧ t.presc = s.presc ∧ t.cmp = s.cmp)) ∧
  FailsWith (.rdf (State.reset.presc.zeroExtend 16) State.reset.cmp) State.reset .invalidPrescaler ∧
  FailsWith (.rdp (State.reset.presc.zeroExtend 16) State.reset.cmp) State.reset .invalidPrescaler

/-! ### The overrides -/

/-- R151: SETPS, its encoding, its error, its result, its corner cases and its worked example. -/
def Obligations.SetpsFollowsItsRule : Prop :=
  (∀ n : Arg, decode (0b101#3 ++ n : BitVec 35) = .ok (.setps n)) ∧
  (∀ (n : Arg) (s : State), n.toNat < 1 ∨ n.toNat > 5 → FailsWith (.setps n) s .outOfRange) ∧
  (∀ (n : Arg) (s : State), 1 ≤ n.toNat → n.toNat ≤ 5 →
    exec (.setps n) s = .next { s with
      presc := n.extractLsb' 0 3, rsp := some ⟨.ok, (0#45 ++ n.extractLsb' 0 3 ++ s.cmp : BitVec 64)⟩ }) ∧
  (∀ s : State, FailsWith (.setps 8#32) s .outOfRange ∧ FailsWith (.setps 0x00010001#32) s .outOfRange ∧
    FailsWith (.setps 1024#32) s .outOfRange) ∧
  (∀ (n : Arg) (s t : State) (d : Data), exec (.setps n) s = .next t → t.rsp = some ⟨.ok, d⟩ → t.presc ≠ 0#3) ∧
  (∀ (s : State), s.presc = 1#3 → s.cmp = 15999#16 → exec (.setps 5#32) s =
    .next { s with presc := 5#3, rsp := some ⟨.ok, 0x0000000000053E7F#64⟩ }) ∧
  (0b101#3 ++ 5#32 : BitVec 35) = 0x500000005#35

/-- R154: SETCV, its encoding, its error, its result, its corner cases and its worked example. -/
def Obligations.SetcvFollowsItsRule : Prop :=
  (∀ v : Arg, decode (0b110#3 ++ v : BitVec 35) = .ok (.setcv v)) ∧
  (∀ (v : Arg) (s : State), v.toNat > 65535 → FailsWith (.setcv v) s .outOfRange) ∧
  (∀ (v : Arg) (s : State), v.toNat ≤ 65535 →
    exec (.setcv v) s = .next { s with
      cmp := v.extractLsb' 0 16, rsp := some ⟨.ok, (0#45 ++ s.presc ++ v.extractLsb' 0 16 : BitVec 64)⟩ }) ∧
  (∀ s : State, FailsWith (.setcv 65536#32) s .outOfRange) ∧
  (∀ (v : Arg) (s t : State), exec (.setcv v) s = .next t → t.presc = s.presc) ∧
  (∀ (v : Arg), v.toNat ≤ 65535 → Configures (.setcv v) State.reset 0 v.toNat) ∧
  (∀ s : State, FailsWith (.rdf 0#16 s.cmp) s .invalidPrescaler ∧ FailsWith (.rdp 0#16 s.cmp) s .invalidPrescaler) ∧
  (∀ (s : State), s.presc = 5#3 → s.cmp = 15999#16 →
    exec (.setcv 65535#32) s = .next { s with cmp := 65535#16, rsp := some ⟨.ok, 0x000000000005FFFF#64⟩ } ∧
    Answers (.rdf 5#16 65535#16) { s with cmp := 65535#16 } 0x3FBE848000000000#64) ∧
  (0b110#3 ++ 65535#32 : BitVec 35) = 0x60000FFFF#35

/-- R156: SETPS n and SETCV v, in either order, reach (n, v) from any state. -/
def Obligations.OverridesReachEveryPair : Prop :=
  ∀ (n v : Arg) (s : State), 1 ≤ n.toNat → n.toNat ≤ 5 → v.toNat ≤ 65535 →
    (∃ t u, exec (.setps n) s = .next t ∧ exec (.setcv v) t = .next u ∧ u.presc.toNat = n.toNat ∧ u.cmp.toNat = v.toNat) ∧
    (∃ t u, exec (.setcv v) s = .next t ∧ exec (.setps n) t = .next u ∧ u.presc.toNat = n.toNat ∧ u.cmp.toNat = v.toNat)

/-! ### Frames -/

/-- R25: the access summary. What each command leaves unchanged, and what it does not read: two runs that agree on what it
reads agree on its response and on what it writes. -/
def Obligations.AccessSummary : Prop :=
  (∀ (i : Instr) (s t : State), exec i s = .next t → t.host = s.host ∧
    ((∃ o c, i = .rdf o c ∨ i = .rdp o c) → t.presc = s.presc ∧ t.cmp = s.cmp) ∧
    ((∃ n, i = .setps n) → t.cmp = s.cmp) ∧ ((∃ v, i = .setcv v) → t.presc = s.presc) ∧
    (∀ e d, t.rsp = some ⟨.error e, d⟩ → t.presc = s.presc ∧ t.cmp = s.cmp)) ∧
  (∀ (i : Instr) (s s' t t' : State), exec i s = .next t → exec i s' = .next t' →
    ((∃ n, i = .setps n) → s.cmp = s'.cmp) → ((∃ v, i = .setcv v) → s.presc = s'.presc) →
    t.rsp = t'.rsp ∧
    (∀ d, t.rsp = some ⟨.ok, d⟩ →
      (((∃ x, i = .solvf x ∨ i = .solvp x) → t.presc = t'.presc ∧ t.cmp = t'.cmp) ∧
        ((∃ n, i = .setps n) → t.presc = t'.presc) ∧ ((∃ v, i = .setcv v) → t.cmp = t'.cmp)))) ∧
  (∀ (s t : State) (op : Op) (arg : Arg) (rest : List HostEvent), op = 0#3 ∨ op = 7#3 →
    s.host = .command (op ++ arg : BitVec 35) :: rest → step s = .next t → t.presc = s.presc ∧ t.cmp = s.cmp)

/-- R45: every command is idempotent: issued again at once it leaves the same state and gives the same response. -/
def Obligations.CommandsAreIdempotent : Prop :=
  ∀ (i : Instr) (s t : State), exec i s = .next t → exec i t = .next t
end

