-- ==== Sys2Proof/Laws/Selector.lean ====
section
/-! SUPPORT. The ladders as ranges, and what a prescaler can be. -/

namespace Sys2Proof.Machine

/-- Rung by rung, the frequency ladder (R92). -/
theorem selF_eq (f : Nat) :
    selF f = if 123 ≤ f then .by1 else if 16 ≤ f then .by8 else if 2 ≤ f then .by64 else if 1 ≤ f then .by256 else .by1024 := by
  simp [selF, climb, freqRungs]

/-- Rung by rung, the period ladder (R94). -/
theorem selP_eq (p : Nat) :
    selP p = if p ≤ 0 then .by1 else if p ≤ 65536 then .by8 else if p ≤ 524288 then .by64
      else if p ≤ 2097152 then .by256 else .by1024 := by
  simp [selP, climb, periodRungs]

/-- Inside SOLVF's domain the frequency ladder has four outcomes. -/
theorem selF_cases (f : Nat) (h : 1 ≤ f) :
    (selF f = .by1 ∧ 123 ≤ f) ∨ (selF f = .by8 ∧ 16 ≤ f ∧ f < 123) ∨ (selF f = .by64 ∧ 2 ≤ f ∧ f < 16) ∨
    (selF f = .by256 ∧ f = 1) := by
  rw [selF_eq]
  split
  · exact .inl ⟨rfl, by assumption⟩
  · split
    · exact .inr (.inl ⟨rfl, by assumption, by omega⟩)
    · split
      · exact .inr (.inr (.inl ⟨rfl, by assumption, by omega⟩))
      · exact .inr (.inr (.inr ⟨rfl, by omega⟩))

/-- Inside SOLVP's domain the period ladder has four outcomes. -/
theorem selP_cases (p : Nat) (h : 1 ≤ p) :
    (selP p = .by8 ∧ p ≤ 65536) ∨ (selP p = .by64 ∧ 65536 < p ∧ p ≤ 524288) ∨
    (selP p = .by256 ∧ 524288 < p ∧ p ≤ 2097152) ∨ (selP p = .by1024 ∧ 2097152 < p) := by
  rw [selP_eq, if_neg (by omega)]
  split
  · exact .inl ⟨rfl, by assumption⟩
  · split
    · exact .inr (.inl ⟨rfl, by omega, by assumption⟩)
    · split
      · exact .inr (.inr (.inl ⟨rfl, by omega, by assumption⟩))
      · exact .inr (.inr (.inr ⟨rfl, by omega⟩))

/-- An ordinal has a prescaler exactly when it is in 1..5, and then it is that prescaler's ordinal. -/
theorem ofOrdinal_some {o : Nat} {p : Prescaler} (h : Prescaler.ofOrdinal o = some p) :
    1 ≤ o ∧ o ≤ 5 ∧ p.ordinal.toNat = o := by
  unfold Prescaler.ofOrdinal at h
  split at h <;> first | (cases h; decide) | cases h

theorem ofOrdinal_none {o : Nat} (h : Prescaler.ofOrdinal o = none) : o < 1 ∨ 5 < o := by
  by_contra hn
  have : o = 1 ∨ o = 2 ∨ o = 3 ∨ o = 4 ∨ o = 5 := by omega
  rcases this with rfl | rfl | rfl | rfl | rfl <;> cases h

theorem ofOrdinal_isSome {o : Nat} (h1 : 1 ≤ o) (h2 : o ≤ 5) : ∃ p, Prescaler.ofOrdinal o = some p := by
  have : o = 1 ∨ o = 2 ∨ o = 3 ∨ o = 4 ∨ o = 5 := by omega
  rcases this with rfl | rfl | rfl | rfl | rfl <;> exact ⟨_, rfl⟩

theorem ofOrdinal_out {o : Nat} (h : o < 1 ∨ 5 < o) : Prescaler.ofOrdinal o = none := by
  cases hp : Prescaler.ofOrdinal o with
  | none => rfl
  | some p => have := ofOrdinal_some hp; omega

@[simp] theorem ofOrdinal_ordinal (p : Prescaler) : Prescaler.ofOrdinal p.ordinal.toNat = some p := by
  cases p <;> rfl

theorem Prescaler.ordinal_range (p : Prescaler) : 1 ≤ p.ordinal.toNat ∧ p.ordinal.toNat ≤ 5 := by
  cases p <;> decide

theorem Prescaler.ordinal_injective {p q : Prescaler} (h : p.ordinal = q.ordinal) : p = q := by
  revert h; cases p <;> cases q <;> decide

theorem Prescaler.div_pos (p : Prescaler) : 0 < p.div := by cases p <;> decide

/-- Every divisor is a power of two (R90), at most 2^10. -/
theorem Prescaler.div_pow (p : Prescaler) : ∃ k, k ≤ 10 ∧ p.div = 2 ^ k := by
  cases p
  · exact ⟨0, by decide, rfl⟩
  · exact ⟨3, by decide, rfl⟩
  · exact ⟨6, by decide, rfl⟩
  · exact ⟨8, by decide, rfl⟩
  · exact ⟨10, by decide, rfl⟩

end Sys2Proof.Machine
end

