-- ==== Sys2Proof/Laws/State.lean ====
section
/-! SUPPORT. One lemma per field per update of State, so that no later proof unfolds a record update. -/

namespace Sys2Proof.Machine

variable (s : State) (o : PrescOrdinal) (c : CompareValue) (d : Data) (e : CmdError)

@[simp] theorem State.writePresc_presc : (s.writePresc o).presc = o := rfl
@[simp] theorem State.writePresc_cmp : (s.writePresc o).cmp = s.cmp := rfl
@[simp] theorem State.writePresc_rsp : (s.writePresc o).rsp = s.rsp := rfl
@[simp] theorem State.writePresc_host : (s.writePresc o).host = s.host := rfl

@[simp] theorem State.writeCmp_presc : (s.writeCmp c).presc = s.presc := rfl
@[simp] theorem State.writeCmp_cmp : (s.writeCmp c).cmp = c := rfl
@[simp] theorem State.writeCmp_rsp : (s.writeCmp c).rsp = s.rsp := rfl
@[simp] theorem State.writeCmp_host : (s.writeCmp c).host = s.host := rfl

@[simp] theorem State.writeCfg_presc : (s.writeCfg o c).presc = o := rfl
@[simp] theorem State.writeCfg_cmp : (s.writeCfg o c).cmp = c := rfl
@[simp] theorem State.writeCfg_rsp : (s.writeCfg o c).rsp = s.rsp := rfl
@[simp] theorem State.writeCfg_host : (s.writeCfg o c).host = s.host := rfl

@[simp] theorem State.respondOk_presc : (s.respondOk d).presc = s.presc := rfl
@[simp] theorem State.respondOk_cmp : (s.respondOk d).cmp = s.cmp := rfl
@[simp] theorem State.respondOk_rsp : (s.respondOk d).rsp = some ⟨.ok, d⟩ := rfl
@[simp] theorem State.respondOk_host : (s.respondOk d).host = s.host := rfl

@[simp] theorem State.respondConfig_presc : s.respondConfig.presc = s.presc := rfl
@[simp] theorem State.respondConfig_cmp : s.respondConfig.cmp = s.cmp := rfl
@[simp] theorem State.respondConfig_rsp : s.respondConfig.rsp = some ⟨.ok, pack s.presc s.cmp⟩ := rfl
@[simp] theorem State.respondConfig_host : s.respondConfig.host = s.host := rfl

@[simp] theorem State.raise_presc : (s.raise e).presc = s.presc := rfl
@[simp] theorem State.raise_cmp : (s.raise e).cmp = s.cmp := rfl
@[simp] theorem State.raise_rsp : (s.raise e).rsp = some ⟨.error e, 0#64⟩ := rfl
@[simp] theorem State.raise_host : (s.raise e).host = s.host := rfl

@[simp] theorem State.takeReset_presc : s.takeReset.presc = 0#3 := rfl
@[simp] theorem State.takeReset_cmp : s.takeReset.cmp = 0#16 := rfl
@[simp] theorem State.takeReset_rsp : s.takeReset.rsp = none := rfl
@[simp] theorem State.takeReset_host : s.takeReset.host = s.host := rfl

@[simp] theorem State.wait_presc : s.wait.presc = s.presc := rfl
@[simp] theorem State.wait_cmp : s.wait.cmp = s.cmp := rfl
@[simp] theorem State.wait_rsp : s.wait.rsp = none := rfl
@[simp] theorem State.wait_host : s.wait.host = s.host := rfl

end Sys2Proof.Machine
end

