-- ==== Sys2Proof/Laws/Exec.lean ====
section
/-! SUPPORT. What a command and a step can do, said once: later proofs cite these and do not unfold the meanings. -/

namespace Sys2Proof.Machine

/-- What one command can do: fail, answer without a write, or write `CFG` with a legal ordinal and answer its image. -/
theorem exec_cases (i : Instr) (s : State) :
    (∃ e, exec i s = .next (s.raise e)) ∨ (∃ d, exec i s = .next (s.respondOk d)) ∨
    (∃ o c, (o = s.presc ∨ 1 ≤ o.toNat ∧ o.toNat ≤ 5) ∧ exec i s = .next (s.writeCfg o c).respondConfig) := by
  cases i with
  | solvf f =>
    simp only [exec, execSolvf]
    split
    · exact .inr (.inr ⟨_, _, .inr (Prescaler.ordinal_range _), rfl⟩)
    · exact .inl ⟨_, rfl⟩
  | solvp p =>
    simp only [exec, execSolvp]
    split
    · exact .inr (.inr ⟨_, _, .inr (Prescaler.ordinal_range _), rfl⟩)
    · exact .inl ⟨_, rfl⟩
  | rdf o c =>
    simp only [exec, execRdf]
    split
    · exact .inr (.inl ⟨_, rfl⟩)
    · exact .inl ⟨_, rfl⟩
  | rdp o c =>
    simp only [exec, execRdp]
    split
    · exact .inr (.inl ⟨_, rfl⟩)
    · exact .inl ⟨_, rfl⟩
  | setps n =>
    simp only [exec, execSetps]
    split
    · exact .inr (.inr ⟨_, s.cmp, .inr (Prescaler.ordinal_range _), rfl⟩)
    · exact .inl ⟨_, rfl⟩
  | setcv v =>
    simp only [exec, execSetcv]
    split
    · exact .inr (.inr ⟨s.presc, _, .inl rfl, rfl⟩)
    · exact .inl ⟨_, rfl⟩

/-- A command presents a response and leaves the host's events alone. -/
theorem exec_answers (i : Instr) (s : State) : ∃ t r, exec i s = .next t ∧ t.rsp = some r ∧ t.host = s.host := by
  rcases exec_cases i s with ⟨e, h⟩ | ⟨d, h⟩ | ⟨o, c, -, h⟩ <;> exact ⟨_, _, h, rfl, rfl⟩

/-- A command does not read the response port. -/
theorem exec_ignores_rsp (i : Instr) (s : State) (r : Option Response) : exec i { s with rsp := r } = exec i s := by
  cases i <;> simp only [exec, execSolvf, execSolvp, execRdf, execRdp, execSetps, execSetcv] <;> split <;> rfl

/-- What one accepted word can do. -/
theorem accept_cases (cmd : Cmd) (s : State) :
    (∃ i, decode cmd = .ok i ∧ accept cmd s = exec i s) ∨
    (∃ e, decode cmd = .error e ∧ accept cmd s = .next (s.raise .illegalOp)) := by
  unfold accept
  cases h : decode cmd with
  | ok i => exact .inl ⟨i, rfl, rfl⟩
  | error e => exact .inr ⟨e, rfl, rfl⟩

/-- What one step does, event by event. -/
theorem step_nil (s : State) (h : s.host = []) : step s = .next s.wait := by
  unfold step; rw [h]

theorem step_cons (s : State) (ev : HostEvent) (rest : List HostEvent) (h : s.host = ev :: rest) :
    step s = serve ev { s with host := rest } := by
  unfold step; rw [h]

end Sys2Proof.Machine
end

