-- ==== Sys2Proof/Laws/Fields.lean ====
section
/-! SUPPORT. The fields of a command word, of a reader's operand and of a TimerConfig image. -/

namespace Sys2Proof

@[simp] theorem opField_append (op : Op) (arg : Arg) : opField (op ++ arg : BitVec 35) = op := by
  ext i hi
  simp only [opField, BitVec.getElem_extractLsb', BitVec.getLsbD_append]
  split
  · omega
  · simp [BitVec.getLsbD_eq_getElem hi]

@[simp] theorem argField_append (op : Op) (arg : Arg) : argField (op ++ arg : BitVec 35) = arg := by
  ext i hi
  simp only [argField, BitVec.getElem_extractLsb', BitVec.getLsbD_append]
  simp [hi]

@[simp] theorem ordinalField_append (o c : Half) : ordinalField (o ++ c : BitVec 32) = o := by
  ext i hi
  simp only [ordinalField, BitVec.getElem_extractLsb', BitVec.getLsbD_append]
  split
  · omega
  · simp [BitVec.getLsbD_eq_getElem hi]

@[simp] theorem compareField_append (o c : Half) : compareField (o ++ c : BitVec 32) = c := by
  ext i hi
  simp only [compareField, BitVec.getElem_extractLsb', BitVec.getLsbD_append]
  simp [hi]

/-- A command word is its opcode and its operand, and no other bit. -/
theorem cmd_eq_append (cmd : Cmd) : (opField cmd ++ argField cmd : BitVec 35) = cmd := by
  ext i hi
  simp only [opField, argField, BitVec.getElem_append, BitVec.getElem_extractLsb']
  split
  · simp [BitVec.getLsbD_eq_getElem hi]
  · rw [show 32 + (i - 32) = i by omega]; exact BitVec.getLsbD_eq_getElem hi

/-- A reader's operand is its ordinal and its compare value, and no other bit. -/
theorem arg_eq_append (arg : Arg) : (ordinalField arg ++ compareField arg : BitVec 32) = arg := by
  ext i hi
  simp only [ordinalField, compareField, BitVec.getElem_append, BitVec.getElem_extractLsb']
  split
  · simp [BitVec.getLsbD_eq_getElem hi]
  · rw [show 16 + (i - 16) = i by omega]; exact BitVec.getLsbD_eq_getElem hi

/-- An opcode is one of the eight numbers. -/
theorem op_cases (op : Op) :
    op = 0#3 ∨ op = 1#3 ∨ op = 2#3 ∨ op = 3#3 ∨ op = 4#3 ∨ op = 5#3 ∨ op = 6#3 ∨ op = 7#3 := by
  revert op; decide

namespace Machine

@[simp] theorem pack_compare (o : PrescOrdinal) (c : CompareValue) : (pack o c).extractLsb' 0 16 = c := by
  ext i hi
  simp only [pack, BitVec.getElem_extractLsb', BitVec.getLsbD_append]
  simp [hi]

@[simp] theorem pack_ordinal (o : PrescOrdinal) (c : CompareValue) : (pack o c).extractLsb' 16 3 = o := by
  ext i hi
  simp only [pack, BitVec.getElem_extractLsb', BitVec.getLsbD_append]
  simp [hi]

/-- The number an image is. -/
theorem pack_toNat (o : PrescOrdinal) (c : CompareValue) : (pack o c).toNat = 65536 * o.toNat + c.toNat := by
  simp only [pack, BitVec.toNat_append]
  rw [← Nat.shiftLeft_add_eq_or_of_lt c.isLt]
  simp [Nat.shiftLeft_eq]
  omega

end Machine

end Sys2Proof
end

