-- ==== Sys2Proof/Laws/Float64.lean ====
section
/-! SUPPORT. The lemmas about `f64` and its parts: the exponent, the rounding, the pattern, and the value it stands for. -/

namespace Sys2Proof.Machine

/-! ### The exponent -/

/-- `f64Exponent` is the `e` of R130. -/
theorem f64Exponent_spec {N D : Nat} (hN : 0 < N) (hD : 0 < D) :
    (2 : Rat) ^ f64Exponent N D * D ≤ N ∧ (N : Rat) < 2 ^ (f64Exponent N D + 1) * D := by
  unfold f64Exponent
  split
  · rename_i h
    have hq : N / D ≠ 0 := (Nat.div_pos h hD).ne'
    have h1 : 2 ^ Nat.log2 (N / D) * D ≤ N := (Nat.le_div_iff_mul_le hD).1 (Nat.log2_self_le hq)
    have h2 : N < 2 ^ (Nat.log2 (N / D) + 1) * D := (Nat.div_lt_iff_lt_mul hD).1 Nat.lt_log2_self
    refine ⟨?_, ?_⟩
    · rw [zpow_natCast]; exact_mod_cast h1
    · rw [← Nat.cast_succ, zpow_natCast]; exact_mod_cast h2
  · rename_i h
    have hq : (D - 1) / N ≠ 0 := (Nat.div_pos (by omega) hN).ne'
    have h1 : 2 ^ Nat.log2 ((D - 1) / N) * N ≤ D - 1 := (Nat.le_div_iff_mul_le hN).1 (Nat.log2_self_le hq)
    have h2 : D - 1 < 2 ^ (Nat.log2 ((D - 1) / N) + 1) * N := (Nat.div_lt_iff_lt_mul hN).1 Nat.lt_log2_self
    generalize Nat.log2 ((D - 1) / N) = j at h1 h2
    refine ⟨?_, ?_⟩
    · have : (D : Rat) ≤ 2 ^ (j + 1) * N := by exact_mod_cast (by omega : D ≤ 2 ^ (j + 1) * N)
      rw [zpow_neg, ← Nat.cast_succ, zpow_natCast, inv_mul_le_iff₀ (by positivity)]
      exact this
    · have : (2 : Rat) ^ j * N < D := by exact_mod_cast (by omega : 2 ^ j * N < D)
      rw [show (-((j : Int) + 1) + 1) = -(j : Int) by ring, zpow_neg, zpow_natCast, lt_inv_mul_iff₀ (by positivity)]
      exact this

/-- No other exponent has the property of R130. -/
theorem f64Exponent_unique {N D : Nat} (hN : 0 < N) (hD : 0 < D) {e : Int} (h1 : (2 : Rat) ^ e * D ≤ N)
    (h2 : (N : Rat) < 2 ^ (e + 1) * D) : f64Exponent N D = e := by
  have ⟨g1, g2⟩ := f64Exponent_spec hN hD
  have hD' : (0 : Rat) < D := by exact_mod_cast hD
  have a := lt_of_mul_lt_mul_right (h1.trans_lt g2) hD'.le
  have b := lt_of_mul_lt_mul_right (g1.trans_lt h2) hD'.le
  rw [zpow_lt_zpow_iff_right₀ (by norm_num)] at a b
  omega

/-- Bounds of the exponent from bounds of the quotient. -/
theorem f64Exponent_bounds {N D : Nat} (hN : 0 < N) (hD : 0 < D) {j k : Int} (h1 : (2 : Rat) ^ j * D ≤ N)
    (h2 : (N : Rat) < 2 ^ (k + 1) * D) : j ≤ f64Exponent N D ∧ f64Exponent N D ≤ k := by
  have ⟨g1, g2⟩ := f64Exponent_spec hN hD
  have hD' : (0 : Rat) < D := by exact_mod_cast hD
  have a := lt_of_mul_lt_mul_right (h1.trans_lt g2) hD'.le
  have b := lt_of_mul_lt_mul_right (g1.trans_lt h2) hD'.le
  rw [zpow_lt_zpow_iff_right₀ (by norm_num)] at a b
  omega

/-! ### The rounding -/

/-- Rounding to nearest, ties to even, as a statement about the exact quotient. -/
theorem roundNearestEven_spec (num den : Nat) (h : 0 < den) :
    |(roundNearestEven num den : Rat) - num / den| ≤ 1 / 2 ∧
    (|(roundNearestEven num den : Rat) - num / den| = 1 / 2 → roundNearestEven num den % 2 = 0) := by
  have hd : (0 : Rat) < den := by exact_mod_cast h
  have hdm : (num : Rat) = den * (num / den : Nat) + (num % den : Nat) := by exact_mod_cast (Nat.div_add_mod num den).symm
  have hq : (num : Rat) / den = (num / den : Nat) + (num % den : Nat) / den := by
    rw [hdm]; field_simp
  have hr : ((num % den : Nat) : Rat) / den < 1 := by
    rw [div_lt_one hd]; exact_mod_cast Nat.mod_lt num h
  have hr0 : (0 : Rat) ≤ ((num % den : Nat) : Rat) / den := by positivity
  have gt : (2 * (num % den) > den ↔ 1 / 2 < ((num % den : Nat) : Rat) / den) := by
    rw [lt_div_iff₀ hd, gt_iff_lt, ← Nat.cast_lt (α := Rat)]; push_cast; constructor <;> intro <;> linarith
  have eq : (2 * (num % den) = den ↔ ((num % den : Nat) : Rat) / den = 1 / 2) := by
    rw [div_eq_iff hd.ne', ← Nat.cast_inj (R := Rat)]; push_cast; constructor <;> intro <;> linarith
  unfold roundNearestEven
  rw [hq]
  simp only [gt, eq]
  generalize ((num % den : Nat) : Rat) / den = r at hr hr0
  generalize num / den = m
  split
  · rename_i hc
    push_cast
    rw [show (m : Rat) + 1 - (m + r) = 1 - r by ring, abs_of_nonneg (by linarith)]
    rcases hc with hc | ⟨hc, hm⟩
    · exact ⟨by linarith, fun he => by linarith⟩
    · exact ⟨by linarith, fun _ => by omega⟩
  · rename_i hc
    push Not at hc
    rw [show (m : Rat) - (m + r) = -r by ring, abs_neg, abs_of_nonneg hr0]
    refine ⟨hc.1, fun he => ?_⟩
    have := hc.2 he
    omega

/-- The rounded integer depends on the quotient alone. -/
theorem roundNearestEven_scale (num den k : Nat) (hk : 0 < k) :
    roundNearestEven (k * num) (k * den) = roundNearestEven num den := by
  unfold roundNearestEven
  simp only [Nat.mul_div_mul_left _ _ hk, Nat.mul_mod_mul_left]
  have h1 : 2 * (k * (num % den)) > k * den ↔ 2 * (num % den) > den := by
    rw [show 2 * (k * (num % den)) = k * (2 * (num % den)) by ring]
    exact Nat.mul_lt_mul_left hk
  have h2 : 2 * (k * (num % den)) = k * den ↔ 2 * (num % den) = den := by
    rw [show 2 * (k * (num % den)) = k * (2 * (num % den)) by ring]
    exact Nat.mul_right_inj hk.ne'
  simp only [h1, h2]

theorem roundNearestEven_congr {a b a' b' : Nat} (hb : 0 < b) (hb' : 0 < b') (h : a * b' = a' * b) :
    roundNearestEven a b = roundNearestEven a' b' := by
  rw [← roundNearestEven_scale a b b' hb', ← roundNearestEven_scale a' b' b hb, Nat.mul_comm b' a, h, Nat.mul_comm a' b,
    Nat.mul_comm b' b]

/-- An integer quotient is rounded to itself. -/
theorem roundNearestEven_exact (m den : Nat) (h : 0 < den) : roundNearestEven (m * den) den = m := by
  simp [roundNearestEven, Nat.mul_div_cancel _ h, h.ne]

/-! ### The quotient before rounding -/

theorem f64Den_pos {D : Nat} (N : Nat) (hD : 0 < D) : 0 < f64Den N D := by unfold f64Den; positivity

/-- `num / den` is `q * 2^(52 - e)` (R130). -/
theorem f64_quotient (N D : Nat) :
    (f64Num N D : Rat) / f64Den N D = N / D * 2 ^ (52 - f64Exponent N D) := by
  unfold f64Num f64Den
  generalize f64Exponent N D = e
  push_cast
  rw [mul_div_mul_comm]
  congr 1
  rcases le_total e 52 with h | h
  · obtain ⟨k, hk⟩ := Int.eq_ofNat_of_zero_le (sub_nonneg.2 h)
    rw [hk, Int.toNat_natCast, show (e - 52).toNat = 0 by omega]; simp
  · obtain ⟨k, hk⟩ := Int.eq_ofNat_of_zero_le (sub_nonneg.2 h)
    rw [hk, Int.toNat_natCast, show (52 - e).toNat = 0 by omega, show 52 - e = -(k : Int) by omega]; simp

/-- It lies in [2^52, 2^53). -/
theorem f64_quotient_range {N D : Nat} (hN : 0 < N) (hD : 0 < D) :
    (2 : Rat) ^ 52 ≤ N / D * 2 ^ (52 - f64Exponent N D) ∧ (N : Rat) / D * 2 ^ (52 - f64Exponent N D) < 2 ^ 53 := by
  have ⟨g1, g2⟩ := f64Exponent_spec hN hD
  have hD' : (0 : Rat) < D := by exact_mod_cast hD
  generalize f64Exponent N D = e at g1 g2 ⊢
  have hp : (0 : Rat) < 2 ^ (52 - e) := by positivity
  rw [← le_div_iff₀ hD'] at g1
  rw [← div_lt_iff₀ hD'] at g2
  refine ⟨?_, ?_⟩
  · calc (2 : Rat) ^ 52 = 2 ^ e * 2 ^ (52 - e) := by rw [← zpow_add₀ (by norm_num)]; norm_num
      _ ≤ _ := mul_le_mul_of_nonneg_right g1 hp.le
  · calc (N : Rat) / D * 2 ^ (52 - e) < 2 ^ (e + 1) * 2 ^ (52 - e) := mul_lt_mul_of_pos_right g2 hp
      _ = 2 ^ 53 := by rw [← zpow_add₀ (by norm_num), show e + 1 + (52 - e) = 53 by ring]; norm_num

/-- So the rounded integer is in 2^52..2^53. -/
theorem f64_rounded_range {N D : Nat} (hN : 0 < N) (hD : 0 < D) :
    2 ^ 52 ≤ roundNearestEven (f64Num N D) (f64Den N D) ∧ roundNearestEven (f64Num N D) (f64Den N D) ≤ 2 ^ 53 := by
  obtain ⟨h, -⟩ := roundNearestEven_spec (f64Num N D) (f64Den N D) (f64Den_pos N hD)
  have ⟨g1, g2⟩ := f64_quotient_range hN hD
  rw [f64_quotient, abs_le] at h
  generalize roundNearestEven (f64Num N D) (f64Den N D) = m at h
  constructor
  · have : (2 : Rat) ^ 52 < (m : Rat) + 1 := by linarith
    have : 2 ^ 52 < m + 1 := by exact_mod_cast this
    omega
  · have : (m : Rat) < 2 ^ 53 + 1 := by linarith
    have : m < 2 ^ 53 + 1 := by exact_mod_cast this
    omega

/-! ### The pattern -/

section Pattern
variable {e : Int} {m : Nat}

theorem f64Pattern_sign (e : Int) (m : Nat) : (f64Pattern e m).extractLsb' 63 1 = 0#1 := by
  ext i hi
  have : i = 0 := by omega
  subst this
  simp only [f64Pattern, BitVec.getElem_extractLsb', BitVec.getLsbD_append]
  simp

theorem f64Pattern_exponent (h1 : -1023 ≤ e) (h2 : e ≤ 1024) : f64ExponentField (f64Pattern e m) = (e + 1023).toNat := by
  have : (f64Pattern e m).extractLsb' 52 11 = BitVec.ofInt 11 (e + 1023) := by
    ext i hi
    simp only [f64Pattern, BitVec.getElem_extractLsb', BitVec.getLsbD_append]
    simp [hi]
  rw [f64ExponentField, this, BitVec.toNat_ofInt]
  omega

theorem f64Pattern_fraction (h1 : 2 ^ 52 ≤ m) (h2 : m < 2 ^ 53) : f64FractionField (f64Pattern e m) = m - 2 ^ 52 := by
  have : (f64Pattern e m).extractLsb' 0 52 = BitVec.ofNat 52 (m - 2 ^ 52) := by
    ext i hi
    simp only [f64Pattern, BitVec.getElem_extractLsb', BitVec.getLsbD_append]
    simp [hi]
  rw [f64FractionField, this, BitVec.toNat_ofNat]
  omega

theorem f64Pattern_normal (h1 : -1022 ≤ e) (h2 : e ≤ 1023) : f64PositiveNormal (f64Pattern e m) := by
  refine ⟨f64Pattern_sign e m, ?_, ?_⟩ <;> rw [f64Pattern_exponent (by omega) (by omega)] <;> omega

theorem f64Pattern_value (h1 : -1022 ≤ e) (h2 : e ≤ 1023) (h3 : 2 ^ 52 ≤ m) (h4 : m < 2 ^ 53) :
    f64Value (f64Pattern e m) = m * 2 ^ (e - 52) := by
  rw [f64Value, f64Pattern_exponent (by omega) (by omega), f64Pattern_fraction h3 h4, Nat.add_sub_cancel' h3,
    Int.toNat_of_nonneg (by omega), show e + 1023 - 1075 = e - 52 by ring]

end Pattern

/-! ### `f64` -/

/-- What `f64` answers: the integer m nearest to `q * 2^(52 - e)`, ties to even, scaled back. -/
theorem f64_spec {N D : Nat} (hN : 0 < N) (hD : 0 < D) (h1 : -1022 ≤ f64Exponent N D) (h2 : f64Exponent N D ≤ 1022) :
    ∃ m : Nat, 2 ^ 52 ≤ m ∧ m ≤ 2 ^ 53 ∧ m = roundNearestEven (f64Num N D) (f64Den N D) ∧
      |(m : Rat) - N / D * 2 ^ (52 - f64Exponent N D)| ≤ 1 / 2 ∧
      (|(m : Rat) - N / D * 2 ^ (52 - f64Exponent N D)| = 1 / 2 → m % 2 = 0) ∧
      f64Value (f64 N D) = m * 2 ^ (f64Exponent N D - 52) ∧ f64PositiveNormal (f64 N D) ∧
      f64FractionField (f64 N D) % 2 = m % 2 ∧
      f64ExponentField (f64 N D) = (f64Exponent N D + 1023).toNat + (if m = 2 ^ 53 then 1 else 0) := by
  obtain ⟨r1, r2⟩ := f64_rounded_range hN hD
  obtain ⟨n1, n2⟩ := roundNearestEven_spec (f64Num N D) (f64Den N D) (f64Den_pos N hD)
  rw [f64_quotient] at n1 n2
  refine ⟨_, r1, r2, rfl, n1, n2, ?_⟩
  unfold f64
  generalize roundNearestEven (f64Num N D) (f64Den N D) = m at r1 r2
  generalize f64Exponent N D = e at h1 h2
  simp only
  split
  · rename_i hm
    refine ⟨?_, f64Pattern_normal (by omega) (by omega), ?_, ?_⟩
    · rw [f64Pattern_value (by omega) (by omega) (by norm_num) (by norm_num), hm,
        show e + 1 - 52 = (e - 52) + 1 by ring, zpow_add₀ (by norm_num)]
      push_cast; ring
    · rw [f64Pattern_fraction (by norm_num) (by norm_num), hm]; norm_num
    · rw [f64Pattern_exponent (by omega) (by omega)]; omega
  · refine ⟨f64Pattern_value h1 (by omega) r1 (by omega), f64Pattern_normal h1 (by omega), ?_, ?_⟩
    · rw [f64Pattern_fraction r1 (by omega)]; omega
    · rw [f64Pattern_exponent (by omega) (by omega)]; rfl

/-- The rounding error is at most half a unit in the last place. -/
theorem f64_error {N D : Nat} (hN : 0 < N) (hD : 0 < D) (h1 : -1022 ≤ f64Exponent N D) (h2 : f64Exponent N D ≤ 1022) :
    |f64Value (f64 N D) - N / D| ≤ 2 ^ (f64Exponent N D - 53) := by
  obtain ⟨m, -, -, -, h, -, hv, -⟩ := f64_spec hN hD h1 h2
  generalize f64Exponent N D = e at *
  have hp : (0 : Rat) < 2 ^ (e - 52) := by positivity
  have key : f64Value (f64 N D) - N / D = (m - N / D * 2 ^ (52 - e)) * 2 ^ (e - 52) := by
    rw [hv, sub_mul, mul_assoc, ← zpow_add₀ (by norm_num), show 52 - e + (e - 52) = 0 by ring, zpow_zero, mul_one]
  rw [key, abs_mul, abs_of_pos hp, show e - 53 = -1 + (e - 52) by ring, zpow_add₀ (by norm_num)]
  exact mul_le_mul_of_nonneg_right (by norm_num at h ⊢; linarith) hp.le

/-- The answer is exact precisely when `q * 2^(52 - e)` is an integer. -/
theorem f64_exact_iff {N D : Nat} (hN : 0 < N) (hD : 0 < D) (h1 : -1022 ≤ f64Exponent N D) (h2 : f64Exponent N D ≤ 1022) :
    f64Value (f64 N D) = N / D ↔ ∃ k : Nat, (N : Rat) / D * 2 ^ (52 - f64Exponent N D) = k := by
  obtain ⟨m, -, -, -, h, -, hv, -⟩ := f64_spec hN hD h1 h2
  generalize f64Exponent N D = e at *
  rw [hv]
  constructor
  · intro hh
    refine ⟨m, ?_⟩
    rw [← hh, mul_assoc, ← zpow_add₀ (by norm_num), show e - 52 + (52 - e) = 0 by ring, zpow_zero, mul_one]
  · rintro ⟨k, hk⟩
    rw [hk] at h
    have : m = k := by
      have h' := abs_le.1 h
      have a : (m : Rat) < k + 1 := by linarith
      have b : (k : Rat) < m + 1 := by linarith
      have a' : m < k + 1 := by exact_mod_cast a
      have b' : k < m + 1 := by exact_mod_cast b
      omega
    rw [this, ← hk, mul_assoc, ← zpow_add₀ (by norm_num), show 52 - e + (e - 52) = 0 by ring, zpow_zero, mul_one]

/-- A quotient with at most 53 significant bits is answered exactly. -/
theorem f64_exact {N D m : Nat} {e : Int} (hN : 0 < N) (hD : 0 < D) (h3 : 2 ^ 52 ≤ m) (h4 : m < 2 ^ 53)
    (h : (N : Rat) / D = m * 2 ^ (e - 52)) : f64 N D = f64Pattern e m := by
  have hD' : (0 : Rat) < D := by exact_mod_cast hD
  have hp : (0 : Rat) < 2 ^ (e - 52) := by positivity
  have he : f64Exponent N D = e := by
    apply f64Exponent_unique hN hD
    · rw [← le_div_iff₀ hD', h]
      calc (2 : Rat) ^ e = 2 ^ 52 * 2 ^ (e - 52) := by
            rw [show e = 52 + (e - 52) by ring, zpow_add₀ (by norm_num)]; norm_num
        _ ≤ _ := mul_le_mul_of_nonneg_right (by exact_mod_cast h3) hp.le
    · rw [← div_lt_iff₀ hD', h]
      calc (m : Rat) * 2 ^ (e - 52) < 2 ^ 53 * 2 ^ (e - 52) := mul_lt_mul_of_pos_right (by exact_mod_cast h4) hp
        _ = 2 ^ (e + 1) := by rw [show e + 1 = 53 + (e - 52) by ring, zpow_add₀ (by norm_num)]; norm_num
  have hq := f64_quotient N D
  have hd := f64Den_pos N hD
  have hd' : (0 : Rat) < f64Den N D := by exact_mod_cast hd
  rw [he, h, mul_assoc, ← zpow_add₀ (by norm_num), show e - 52 + (52 - e) = 0 by ring, zpow_zero, mul_one,
    div_eq_iff hd'.ne'] at hq
  have hr : roundNearestEven (f64Num N D) (f64Den N D) = m := by
    rw [show f64Num N D = m * f64Den N D by exact_mod_cast hq]; exact roundNearestEven_exact _ _ hd
  unfold f64
  rw [hr, he]
  simp only
  rw [if_neg (by omega)]

/-- Two quotients that are equal as numbers are rounded to the same pattern. -/
theorem f64_congr {N D N' D' : Nat} (hN : 0 < N) (hD : 0 < D) (hN' : 0 < N') (hD' : 0 < D')
    (h : (N : Rat) / D = N' / D') : f64 N D = f64 N' D' := by
  have c : (0 : Rat) < D := by exact_mod_cast hD
  have c' : (0 : Rat) < D' := by exact_mod_cast hD'
  obtain ⟨g1, g2⟩ := f64Exponent_spec hN' hD'
  rw [← le_div_iff₀ c', ← h, le_div_iff₀ c] at g1
  rw [← div_lt_iff₀ c', ← h, div_lt_iff₀ c] at g2
  have he := f64Exponent_unique hN hD g1 g2
  have q : (f64Num N D : Rat) / f64Den N D = f64Num N' D' / f64Den N' D' := by
    rw [f64_quotient, f64_quotient, he, h]
  have d1 := f64Den_pos N hD
  have d2 := f64Den_pos N' hD'
  rw [div_eq_div_iff (by exact_mod_cast d1.ne') (by exact_mod_cast d2.ne')] at q
  have hr := roundNearestEven_congr d1 d2 (by exact_mod_cast q : f64Num N D * f64Den N' D' = f64Num N' D' * f64Den N D)
  unfold f64
  rw [he, hr]

/-- Dividing the quotient by a power of two lowers the exponent and keeps the rounded integer. -/
theorem f64_div_pow {N D : Nat} (hN : 0 < N) (hD : 0 < D) (k : Nat) :
    f64Exponent N (D * 2 ^ k) = f64Exponent N D - k ∧
    roundNearestEven (f64Num N (D * 2 ^ k)) (f64Den N (D * 2 ^ k)) = roundNearestEven (f64Num N D) (f64Den N D) := by
  have hDk : 0 < D * 2 ^ k := by positivity
  obtain ⟨g1, g2⟩ := f64Exponent_spec hN hD
  have he : f64Exponent N (D * 2 ^ k) = f64Exponent N D - k := by
    apply f64Exponent_unique hN hDk
    · push_cast
      rw [mul_left_comm, ← zpow_natCast, ← zpow_add₀ (by norm_num), sub_add_cancel, mul_comm]
      exact g1
    · push_cast
      rw [mul_left_comm, ← zpow_natCast, ← zpow_add₀ (by norm_num),
        show f64Exponent N D - k + 1 + k = f64Exponent N D + 1 by ring, mul_comm]
      exact g2
  refine ⟨he, ?_⟩
  have q : (f64Num N (D * 2 ^ k) : Rat) / f64Den N (D * 2 ^ k) = f64Num N D / f64Den N D := by
    rw [f64_quotient, f64_quotient, he, show 52 - (f64Exponent N D - k) = (52 - f64Exponent N D) + k by ring,
      zpow_add₀ (by norm_num), zpow_natCast]
    push_cast
    field_simp
  have d1 := f64Den_pos N hDk
  have d2 := f64Den_pos N hD
  rw [div_eq_div_iff (by exact_mod_cast d1.ne') (by exact_mod_cast d2.ne')] at q
  exact roundNearestEven_congr d1 d2 (by exact_mod_cast q)

/-! ### Positive normal patterns -/

/-- Two positive normal patterns that stand for one number are one pattern. -/
theorem f64Value_injective {a b : Data} (ha : f64PositiveNormal a) (hb : f64PositiveNormal b)
    (h : f64Value a = f64Value b) : a = b := by
  have lt : ∀ x : Data, f64FractionField x < 2 ^ 52 := fun x => (x.extractLsb' 0 52).isLt
  have gap : ∀ (m m' : Nat) (e e' : Int), 2 ^ 52 ≤ m' → m < 2 ^ 53 → (m : Rat) * 2 ^ e = m' * 2 ^ e' → e' ≤ e := by
    intro m m' e e' h1 h2 h3
    by_contra hlt
    obtain ⟨k, hk⟩ := Int.eq_ofNat_of_zero_le (by omega : 0 ≤ e' - e - 1)
    have hp : (0 : Rat) < 2 ^ e := by positivity
    rw [show e' = (k : Int) + 1 + e by omega, zpow_add₀ (by norm_num), ← mul_assoc] at h3
    have h4 := mul_right_cancel₀ hp.ne' h3
    rw [← Nat.cast_succ, zpow_natCast] at h4
    have h5 : m = m' * 2 ^ (k + 1) := by exact_mod_cast h4
    have h6 : 2 ^ 1 ≤ 2 ^ (k + 1) := Nat.pow_le_pow_right (by norm_num) (by omega)
    nlinarith
  have la := lt a
  have lb := lt b
  unfold f64Value at h
  have e1 := gap _ _ _ _ (by omega) (by omega) h
  have e2 := gap _ _ _ _ (by omega) (by omega) h.symm
  have he : f64ExponentField a = f64ExponentField b := by omega
  rw [he] at h
  have hp : (2 : Rat) ^ ((f64ExponentField b : Int) - 1075) ≠ 0 := by positivity
  have hm : 2 ^ 52 + f64FractionField a = 2 ^ 52 + f64FractionField b := by exact_mod_cast mul_right_cancel₀ hp h
  have x1 : a.extractLsb' 52 11 = b.extractLsb' 52 11 := BitVec.eq_of_toNat_eq he
  have x2 : a.extractLsb' 0 52 = b.extractLsb' 0 52 := BitVec.eq_of_toNat_eq (by unfold f64FractionField at hm; omega)
  have x3 : a.extractLsb' 63 1 = b.extractLsb' 63 1 := ha.1.trans hb.1.symm
  apply BitVec.eq_of_getLsbD_eq
  intro i hi
  rcases lt_or_ge i 52 with c | c
  · have := congrArg (fun v => v.getLsbD i) x2
    simpa [BitVec.getLsbD_extractLsb', c] using this
  · rcases lt_or_ge i 63 with c' | c'
    · have := congrArg (fun v => v.getLsbD (i - 52)) x1
      simpa [BitVec.getLsbD_extractLsb', show i - 52 < 11 by omega, show 52 + (i - 52) = i by omega] using this
    · have := congrArg (fun v => v.getLsbD (i - 63)) x3
      simpa [BitVec.getLsbD_extractLsb', show i - 63 < 1 by omega, show 63 + (i - 63) = i by omega] using this

end Sys2Proof.Machine
end

