-- ==== Sys2Proof/Laws/Operands.lean ====
section
/-! SUPPORT. The operand tests as ranges of numbers. -/

namespace Sys2Proof.Machine

theorem freqInDomain_iff (f : Arg) : freqInDomain f = true ↔ 1 ≤ f.toNat ∧ f.toNat ≤ 8000000 := by
  unfold freqInDomain
  rw [Bool.and_eq_true, decide_eq_true_iff, decide_eq_true_iff]
  exact Iff.rfl

theorem periodInDomain_iff (p : Arg) : periodInDomain p = true ↔ 1 ≤ p.toNat ∧ p.toNat ≤ 8000000 := by
  unfold periodInDomain
  rw [Bool.and_eq_true, decide_eq_true_iff, decide_eq_true_iff]
  exact Iff.rfl

theorem compareOperand_in {v : Arg} (h : v.toNat ≤ 65535) : compareOperand v = some (v.extractLsb' 0 16) := if_pos h

theorem compareOperand_out {v : Arg} (h : 65535 < v.toNat) : compareOperand v = none := if_neg (by omega)

/-- The low half of an operand that fits 16 bits is the operand. -/
theorem toNat_low_half {v : Arg} (h : v.toNat ≤ 65535) : (v.extractLsb' 0 16).toNat = v.toNat := by
  simp [BitVec.extractLsb'_toNat]; omega

/-- Narrowing a compare value that fits changes nothing (R112, R117). -/
theorem narrowCompare_toNat {n : Nat} (h : n ≤ 65535) : (narrowCompare n).toNat = n := by
  simp [narrowCompare]; omega

end Sys2Proof.Machine
end

