-- ==== Sys2Proof/Laws/PerInstr.lean ====
section
/-! SUPPORT. A fact about every command as syntax: its encoding matches its row of spec/opcode_table.json, "a word `w` is the
command of a row when `w and mask = match`" (spec/30_encoding.md R61, R62). -/

namespace Sys2Proof.Laws.MatchMask

/-- The row's match word (spec/opcode_table.json). -/
def matchWord : Instr → Cmd
  | .solvf _ => 0x100000000#35
  | .solvp _ => 0x200000000#35
  | .rdf _ _ => 0x300000000#35
  | .rdp _ _ => 0x400000000#35
  | .setps _ => 0x500000000#35
  | .setcv _ => 0x600000000#35

def Statement (i : Instr) : Prop := encode i &&& 0x700000000#35 = matchWord i

/-- Masking a word with the table's mask leaves its opcode and clears its operand. -/
theorem masked (op : Op) (arg : Arg) : (op ++ arg : BitVec 35) &&& 0x700000000#35 = (op ++ 0#32 : BitVec 35) := by
  rw [show (0x700000000#35 : BitVec 35) = (BitVec.allOnes 3 ++ 0#32 : BitVec 35) from rfl]
  ext i hi
  simp only [BitVec.getElem_and, BitVec.getElem_append]
  split
  · simp
  · rw [BitVec.getElem_allOnes, Bool.and_true]

theorem solvf (f : Arg) : Statement (.solvf f) := by
  rw [Statement, encode, masked, Instr.opcode, matchWord]; decide
theorem solvp (p : Arg) : Statement (.solvp p) := by
  rw [Statement, encode, masked, Instr.opcode, matchWord]; decide
theorem rdf (o c : Half) : Statement (.rdf o c) := by
  rw [Statement, encode, masked, Instr.opcode, matchWord]; decide
theorem rdp (o c : Half) : Statement (.rdp o c) := by
  rw [Statement, encode, masked, Instr.opcode, matchWord]; decide
theorem setps (n : Arg) : Statement (.setps n) := by
  rw [Statement, encode, masked, Instr.opcode, matchWord]; decide
theorem setcv (v : Arg) : Statement (.setcv v) := by
  rw [Statement, encode, masked, Instr.opcode, matchWord]; decide

end Sys2Proof.Laws.MatchMask
end

