-- ==== Sys2Proof/Machine/AsmText.lean ====
section
/-! DEFINITION. Reading a line of assembler text (spec/30_encoding.md R72, R73): `MNEMONIC operand`, one statement a line, `#` to
the end of the line a comment. The spec leaves white space open: spaces and tabs separate words (log 11). -/

namespace Sys2Proof.Machine

/-- The line up to its comment. -/
def dropComment : List Char → List Char
  | [] => []
  | c :: rest => if c = '#' then [] else c :: dropComment rest

/-- Words of a line; a comma is a word of its own. `word` is the word being read, backwards. -/
def splitWords (word : List Char) : List Char → List (List Char)
  | [] => if word = [] then [] else [word.reverse]
  | c :: rest =>
    if c = ' ' ∨ c = '\t' then (if word = [] then [] else [word.reverse]) ++ splitWords [] rest
    else if c = ',' then (if word = [] then [] else [word.reverse]) ++ [[',']] ++ splitWords [] rest
    else splitWords (c :: word) rest

/-- The value of a digit character in a base, hexadecimal digits in either case. -/
def digitValue (base : Nat) (c : Char) : Option Nat :=
  let n := c.toNat
  let v := if 48 ≤ n ∧ n ≤ 57 then some (n - 48) else if 65 ≤ n ∧ n ≤ 70 then some (n - 55)
    else if 97 ≤ n ∧ n ≤ 102 then some (n - 87) else none
  match v with
  | some d => if d < base then some d else none
  | none => none

/-- Read digits in a base, onto what is read so far. -/
def readDigits (base : Nat) (sofar : Nat) : List Char → Option Nat
  | [] => some sofar
  | c :: rest =>
    match digitValue base c with
    | some d => readDigits base (base * sofar + d) rest
    | none => none

/-- "A decimal or `0x` number" (R72). DESIGN CHOICE, log 11: R72 does not say whether operand text may hold R6's digit separators
or, where it says only "a 35-bit number" or a range, R6's `0b` form; the model refuses both, in every operand. -/
def readNumber : List Char → Option Nat
  | [] => none
  | '0' :: 'x' :: [] => none
  | '0' :: 'x' :: ds => readDigits 16 0 ds
  | ds => readDigits 10 0 ds

/-- The statement of a line's words (R72, R73), mnemonics in upper case; none is an assembly error. -/
def readWords (ws : List (List Char)) : Option Stmt :=
  match ws with
  | [m, a] =>
    if m = "SOLVF".toList then (readNumber a).map .solvf
    else if m = "SOLVP".toList then (readNumber a).map .solvp
    else if m = "SETPS".toList then (readNumber a).map .setps
    else if m = "SETCV".toList then (readNumber a).map .setcv
    else if m = ".word".toList then (readNumber a).map .word
    else if m = "RDF".toList ∧ a = ['@'] then some .rdfAt
    else if m = "RDP".toList ∧ a = ['@'] then some .rdpAt
    else none
  | [m, a, comma, b] =>
    if comma = [','] then
      match readNumber a, readNumber b with
      | some o, some c =>
        if m = "RDF".toList then some (.rdf o c)
        else if m = "RDP".toList then some (.rdp o c)
        else none
      | some _, none => none
      | none, some _ => none
      | none, none => none
    else none
  | _ => none

/-- A line of text: no statement on a blank or comment line, one statement, or none at all on an assembly error. -/
def readLine (line : List Char) : Option (List Stmt) :=
  match splitWords [] (dropComment line) with
  | [] => some []
  | w :: ws => (readWords (w :: ws)).map fun st => [st]

end Sys2Proof.Machine
end

