-- ==== Sys2Proof/Tests/Slice0.lean ====
section
/-! SUPPORT. Tests, each on one step; their expected results are spec/95_test_vectors.md's, or written out from the named rule.
After them, for every statement with hypotheses, a concrete state and operands that meet them. -/

namespace Sys2Proof.Tests

open Sys2Proof.Machine

/-- The state V-SET starts from: CFG = (3, 777) (95_test_vectors.md). -/
def start : State := { presc := 3#3, cmp := 777#16, rsp := none, host := [] }

/-- What one command word does from `start`: status, data, ordinal, compare value. -/
def run (w : Cmd) : Option (Option (Status × Data) × Nat × Nat) :=
  match step { start with host := [.command w] } with
  | .next t => some (t.rsp.map fun r => (r.status, r.data), t.presc.toNat, t.cmp.toNat)
  | .fault _ => none
  | .refused _ => none

/-! ### Well-formedness of assembler statements (R72): one ill-formed statement for each check -/

theorem test_ill_formed_solvf : (Stmt.solvf (2 ^ 32)).wellFormed = false := by decide
theorem test_ill_formed_solvp : (Stmt.solvp (2 ^ 32)).wellFormed = false := by decide
theorem test_ill_formed_rdf_ordinal : (Stmt.rdf 65536 0).wellFormed = false := by decide
theorem test_ill_formed_rdf_compare : (Stmt.rdf 1 65536).wellFormed = false := by decide
theorem test_ill_formed_rdp_ordinal : (Stmt.rdp 65536 0).wellFormed = false := by decide
theorem test_ill_formed_rdp_compare : (Stmt.rdp 1 65536).wellFormed = false := by decide
theorem test_ill_formed_setps : (Stmt.setps (2 ^ 32)).wellFormed = false := by decide
theorem test_ill_formed_setcv : (Stmt.setcv (2 ^ 32)).wellFormed = false := by decide
theorem test_ill_formed_word : (Stmt.word (2 ^ 35)).wellFormed = false := by decide
theorem test_loop_back_without_image : assemble none .rdfAt = none := by decide

/-! ### Decoding: words written out bit by bit from R60, R62, R67 -/

theorem test_decode_solvf : decode 0b00100000000000000000000000111110100#35 = .ok (.solvf 500#32) := by decide
theorem test_decode_solvp : decode 0b01000000000000000000000011111010000#35 = .ok (.solvp 2000#32) := by decide
theorem test_decode_rdf : decode 0b01100000000000000010011111001111111#35 = .ok (.rdf 1#16 15999#16) := by decide
theorem test_decode_rdp : decode 0b10000000000000001011111111111111111#35 = .ok (.rdp 5#16 65535#16) := by decide
theorem test_decode_setps : decode 0b10100000000000000000000000000000101#35 = .ok (.setps 5#32) := by decide
theorem test_decode_setcv : decode 0b11000000000000000001111111111111111#35 = .ok (.setcv 65535#32) := by decide
theorem test_decode_reserved_0 : decode 0b00000000000000000000000000111110100#35 = .error (.reservedOpcode 0#3) := by decide
theorem test_decode_reserved_7 : decode 0b11111111111111111111111111111111111#35 = .error (.reservedOpcode 7#3) := by decide
theorem test_table_word : decodeTableWord 40 0x60000FFFF = some (.setcv 65535#32) := by decide
theorem test_table_word_too_wide : decodeTableWord 40 0x8600000001 = none := by decide

/-! ### One step (V-SOLVF, V-SOLVP, V-RD, V-SET, V-ILL) -/

/-- A tie on rung 1 rounds away from zero (half-even would give 7811). -/
theorem test_solvf_tie : run 0x100000400#35 = some (some (.ok, 0x0000000000011E84#64), 1, 7812) := by decide
theorem test_solvf_above_domain : run 0x1007A1201#35 = some (some (.error .outOfRange, 0#64), 3, 777) := by decide
/-- Truncation: rounding would give compare value 8192. -/
theorem test_solvp_truncates : run 0x200010007#35 = some (some (.ok, 0x0000000000031FFF#64), 3, 8191) := by decide
theorem test_solvp_rung_edge : run 0x200200001#35 = some (some (.ok, 0x0000000000053FFF#64), 5, 16383) := by decide
/-- The result is rounded up in the last bit. -/
theorem test_rdf_rounds : run 0x300010006#35 = some (some (.ok, 0x4131704924924925#64), 3, 777) := by decide
theorem test_rdf_negative_exponent : run 0x30005F422#35 = some (some (.ok, 0x3FC00010C7093862#64), 3, 777) := by decide
theorem test_rdp_slowest : run 0x40005FFFF#35 = some (some (.ok, 0x4160000000000000#64), 3, 777) := by decide
theorem test_rdp_divisor_is_no_ordinal : run 0x400080000#35 = some (some (.error .invalidPrescaler, 0#64), 3, 777) := by decide
theorem test_setps_keeps_compare : run 0x500000005#35 = some (some (.ok, 0x0000000000050309#64), 5, 777) := by decide
theorem test_setps_tests_upper_bits : run 0x500010001#35 = some (some (.error .outOfRange, 0#64), 3, 777) := by decide
theorem test_setcv_keeps_ordinal : run 0x60000FFFF#35 = some (some (.ok, 0x000000000003FFFF#64), 3, 65535) := by decide
theorem test_setcv_does_not_truncate : run 0x600010000#35 = some (some (.error .outOfRange, 0#64), 3, 777) := by decide
theorem test_reserved_opcode : run 0x7FFFFFFFF#35 = some (some (.error .illegalOp, 0#64), 3, 777) := by decide

/-! ### The ladders' dead rungs (V-SEL), the host side (R73, R75) and the host's duty (R204) -/

theorem test_dead_rungs : selF 0 = .by1024 ∧ selP 0 = .by1 := by decide
theorem test_written_response :
    (Response.mk .ok 0x0000000000013E7F#64).written = "OK 0x0000000000013E7F".toList ∧
    (Response.mk (.error .illegalOp) 0#64).written = "IllegalOp".toList := by decide
theorem test_written_decimal :
    (Response.mk .ok 0x3FBE848000000000#64).writtenOfReader = "OK 0x3FBE848000000000 = 0.11920928955078125".toList ∧
    decimalValue 0x415E848000000000#64 = "8000000.0".toList ∧ decimalValue 0x40BE848000000000#64 = "7812.5".toList := by
  decide +kernel
theorem test_written_image : writtenImage 0x0000000000013E7F#64 = "(1, 15999)".toList := by decide +kernel
/-- Lines of R72 and R73, a comment, and three assembly errors. -/
theorem test_read_lines :
    readLine "SOLVF 500 # E2".toList = some [.solvf 500] ∧ readLine "RDF 1, 15999".toList = some [.rdf 1 15999] ∧
    readLine ".word 0x7FFFFFFFF".toList = some [.word 0x7FFFFFFFF] ∧ readLine "RDP @".toList = some [.rdpAt] ∧
    readLine "# reset".toList = some [] ∧ readLine "solvf 500".toList = none ∧ readLine "SETPS 0x".toList = none ∧
    readLine "RDF 1 15999".toList = none := by decide +kernel
/-- Program P2: after a refused SETCV the loop-back still uses the last successful image. -/
theorem test_failed_command_keeps_image :
    nextImage (some 0x5FFFF#64) 0x600010000#35 ⟨.error .outOfRange, 0#64⟩ = some 0x5FFFF#64 := by decide
theorem test_dropped_command_breaks_duty : hostKeepsDuty [.reset (some 1#35), .idle] = false := by decide

/-! ### Witnesses: the hypotheses of each statement can be met -/

/-- V-SET's state with one event for the host to cause. -/
def at' (evs : List HostEvent) : State := { start with host := evs }

theorem witness_ResetTakesEffectFromAnyState :
    (at' [.reset none]).host = [.reset none] ∧ (HostEvent.reset none).resets = true ∧
    (at' [.reset (some 0x500000005#35), .command 0x500000005#35]).host = .reset (some 0x500000005#35) :: [.command 0x500000005#35] ∧
    (HostEvent.reset (some 0x500000005#35)).resets = true ∧
    (at' [.commandThenReset 0x500000005#35]).host = [.commandThenReset 0x500000005#35] ∧
    (HostEvent.commandThenReset 0x500000005#35).resets = true := by decide

theorem witness_FirstCommandAfterReset :
    1 ≤ (1#32).toNat ∧ (1#32).toNat ≤ 8000000 ∧ 1 ≤ (8000000#32).toNat ∧ (8000000#32).toNat ≤ 8000000 ∧
    1 ≤ (1#16).toNat ∧ (5#16).toNat ≤ 5 ∧ 1 ≤ (5#32).toNat ∧ (5#32).toNat ≤ 5 ∧ (65535#32).toNat ≤ 65535 ∧
    ∃ t, exec (.setps 6#32) State.reset = .next t ∧ t.rsp = some ⟨.error .outOfRange, 0#64⟩ :=
  ⟨by decide, by decide, by decide, by decide, by decide, by decide, by decide, by decide, by decide, _, rfl, rfl⟩

theorem witness_EncodeOfDecodeIsTheWord : decode 0x400080000#35 = .ok (.rdp 8#16 0#16) := by decide

theorem witness_ReaderOperandAndLoopBack :
    ¬(1 ≤ (0#16).toNat ∧ (0#16).toNat ≤ 5) ∧ ¬(1 ≤ (6#16).toNat ∧ (6#16).toNat ≤ 5) ∧
    (1 ≤ (1#16).toNat ∧ (1#16).toNat ≤ 5) ∧ (1 ≤ (5#16).toNat ∧ (5#16).toNat ≤ 5) ∧ answersImage 0x60000FFFF#35 = true ∧
    ∃ t, step (at' [.command 0x60000FFFF#35]) = .next t ∧ t.rsp = some ⟨.ok, 0x3FFFF#64⟩ :=
  ⟨by decide, by decide, by decide, by decide, by decide, _, rfl, rfl⟩

theorem witness_ConfigImageShowsStateAfter :
    (∃ t, exec (.solvf 8000000#32) start = .next t ∧ t.rsp = some ⟨.ok, 0x10000#64⟩) ∧
    (∃ t, exec (.solvp 1#32) start = .next t ∧ t.rsp = some ⟨.ok, 0x20000#64⟩) ∧
    (∃ t, exec (.setps 1#32) start = .next t ∧ t.rsp = some ⟨.ok, 0x10309#64⟩) ∧
    (∃ t, exec (.setcv 65535#32) start = .next t ∧ t.rsp = some ⟨.ok, 0x3FFFF#64⟩) :=
  ⟨⟨_, rfl, rfl⟩, ⟨_, rfl, rfl⟩, ⟨_, rfl, rfl⟩, ⟨_, rfl, rfl⟩⟩

theorem witness_ErrorResponseWritesNothing :
    ∃ t, step (at' [.command 0x600010000#35]) = .next t ∧ t.rsp = some ⟨.error .outOfRange, 0#64⟩ := ⟨_, rfl, rfl⟩

theorem witness_ErrorCauseTable :
    (at' [.command (5#3 ++ 6#32 : BitVec 35)]).host = [.command (5#3 ++ 6#32 : BitVec 35)] ∧
    (at' [.command (1#3 ++ 8000001#32 : BitVec 35)]).host = [.command (1#3 ++ 8000001#32 : BitVec 35)] := by decide

theorem witness_ReservedOpcodesAnswerIllegalOp :
    (at' [.command (0#3 ++ 500#32 : BitVec 35)]).host = [.command (0#3 ++ 500#32 : BitVec 35)] ∧
    (at' [.command (7#3 ++ 0#32 : BitVec 35)]).host = [.command (7#3 ++ 0#32 : BitVec 35)] := by decide

theorem witness_StepExecutesPresentedCommand :
    (at' [.command 0x500000005#35, .idle]).host = .command 0x500000005#35 :: [.idle] ∧
    decode 0x500000005#35 = .ok (.setps 5#32) := by decide

theorem witness_WaitingChangesNoRegister : start.host = [] ∧ (at' [.idle, .idle]).host = .idle :: [.idle] := by decide

theorem witness_LaterEventsDoNotInterfere : ∃ t, step { start with host := [.command 0x500000005#35] } = .next t := ⟨_, rfl⟩

theorem witness_AcceptedCommandHasOneResponse :
    (at' [.command 0x500000005#35]).accepted = some 0x500000005#35 ∧
    (at' [.commandThenReset 0x500000005#35]).accepted = some 0x500000005#35 := by decide

theorem witness_HeldCommandIsPresentedAfterReset :
    hostKeepsDuty (at' [.reset (some 0x500000005#35), .command 0x500000005#35]).host = true ∧
    ∃ t, step (at' [.reset (some 0x500000005#35), .command 0x500000005#35]) = .next t := ⟨by decide, _, rfl⟩

theorem witness_SolverUpdatesBothPortsAtOnce :
    decode 0x1007A1200#35 = .ok (.solvf 8000000#32) ∧ decode 0x2007A1201#35 = .ok (.solvp 8000001#32) ∧
    (∃ t, step (at' [.command 0x1007A1200#35]) = .next t) ∧ (∃ t, step (at' [.command 0x2007A1201#35]) = .next t) :=
  ⟨by decide, by decide, ⟨_, rfl⟩, ⟨_, rfl⟩⟩

theorem witness_LoopBackReadsLatestConfiguration :
    answersImage 0x500000001#35 = true ∧
    (∃ t, step (at' [.command 0x500000001#35]) = .next t ∧ t.rsp = some ⟨.ok, 0x10309#64⟩) ∧
    answersImage 0x400010000#35 = false ∧
    (∃ t, step (at' [.command 0x400010000#35]) = .next t ∧ t.rsp = some ⟨.ok, 0x3FC0000000000000#64⟩) :=
  ⟨by decide, ⟨_, rfl, rfl⟩, by decide, ⟨_, rfl, rfl⟩⟩

theorem witness_FailedCommandLeavesNoTrace :
    ∃ t, step (at' [.command 0x500000006#35, .command 0x600000000#35]) = .next t ∧
      t.rsp = some ⟨.error .outOfRange, 0#64⟩ := ⟨_, rfl, rfl⟩

theorem witness_EveryStepKeepsInv :
    (at' [.command 0x500000005#35]).presc.toNat ≤ 5 ∧ (at' [.command 0x500000005#35]).rsp = none ∧
    ∃ t, step (at' [.command 0x500000005#35]) = .next t := ⟨by decide, rfl, _, rfl⟩

theorem witness_OrdinalZeroOnlyBeforeConfiguration :
    1 ≤ (at' [.command 0x600000000#35]).presc.toNat ∧ (at' [.command 0x600000000#35]).presc.toNat ≤ 5 ∧
    (∃ t, step (at' [.command 0x600000000#35]) = .next t) ∧ (HostEvent.command 0x600000000#35).resets = false ∧
    (∃ t, exec (.solvf 1#32) State.reset = .next t ∧ t.rsp = some ⟨.ok, 0x47A11#64⟩) ∧
    (∃ t, exec (.solvp 8000000#32) State.reset = .next t ∧ t.rsp = some ⟨.ok, 0x5F423#64⟩) ∧
    (∃ t, exec (.setps 5#32) State.reset = .next t ∧ t.rsp = some ⟨.ok, 0x50000#64⟩) :=
  ⟨by decide, by decide, ⟨_, rfl⟩, rfl, ⟨_, rfl, rfl⟩, ⟨_, rfl, rfl⟩, ⟨_, rfl, rfl⟩⟩

/-- The boundary inputs of every rung of both ladders. -/
theorem witness_LaddersFollowTheirTables :
    (123#32).toNat ≥ 123 ∧ (16 ≤ (122#32).toNat ∧ (122#32).toNat < 123) ∧ (2 ≤ (15#32).toNat ∧ (15#32).toNat < 16) ∧
    (1#32).toNat = 1 ∧ (0#32).toNat < 1 ∧ (0#32).toNat = 0 ∧ (1 ≤ (65536#32).toNat ∧ (65536#32).toNat ≤ 65536) ∧
    (65536 < (524288#32).toNat ∧ (524288#32).toNat ≤ 524288) ∧ (524288 < (2097152#32).toNat ∧ (2097152#32).toNat ≤ 2097152) ∧
    2097152 < (4294967295#32).toNat := by decide

theorem witness_DivisorTable : 6 ≤ 6 := by decide

theorem witness_FrequencyLadderPicksLeastFit :
    1 ≤ 1 ∧ 8000000 ≤ 8000000 ∧ Prescaler.by64.div < (selF 1).div ∧ Prescaler.by1.div < (selF 122).div := by decide

theorem witness_PeriodLadderFitsButIsNotLeast :
    1 ≤ 524289 ∧ 524289 ≤ 8000000 ∧ 8 ≤ Prescaler.by64.div ∧ Prescaler.by64.div < (selP 524289).div ∧
    Prescaler.by256.div < (selP 2097183).div := by decide

theorem witness_SolvfFollowsItsRule :
    (0#32).toNat < 1 ∧ (8000001#32).toNat > 8000000 ∧ (1 ≤ (1#32).toNat ∧ (1#32).toNat ≤ 8000000) ∧
    (1 ≤ (8000000#32).toNat ∧ (8000000#32).toNat ≤ 8000000) ∧
    (5333334 ≤ (5333334#32).toNat ∧ (5333334#32).toNat ≤ 8000000) := by decide

theorem witness_SolvpFollowsItsRule :
    (0#32).toNat < 1 ∧ (8000001#32).toNat > 8000000 ∧ (1 ≤ (1#32).toNat ∧ (1#32).toNat ≤ 8000000) ∧
    (1 ≤ (8000000#32).toNat ∧ (8000000#32).toNat ≤ 8000000) := by decide

theorem witness_SolverResultsByRung :
    (1 ≤ (16#32).toNat ∧ (16#32).toNat ≤ 8000000) ∧ 123 ≤ (123#32).toNat ∧
    (16 ≤ (16#32).toNat ∧ (16#32).toNat ≤ 122) ∧ (2 ≤ (15#32).toNat ∧ (15#32).toNat ≤ 15) ∧ (1#32).toNat = 1 ∧
    (65536#32).toNat ≤ 65536 ∧ (65537 ≤ (65537#32).toNat ∧ (65537#32).toNat ≤ 524288) ∧
    (524289 ≤ (524289#32).toNat ∧ (524289#32).toNat ≤ 2097152) ∧ 2097153 ≤ (2097153#32).toNat := by decide

theorem witness_RoundHazIsFloorOfHalfMore : 0 < 2 := by decide

theorem witness_SolverRoundingEqualsFloatQuotient : 1 ≤ 1024 ∧ 1024 ≤ 8000000 := by decide

theorem witness_SolvfAccuracy :
    1 ≤ (5333334#32).toNat ∧ (5333334#32).toNat ≤ 8000000 ∧ ∃ t, exec (.solvf 5333334#32) start = .next t :=
  ⟨by decide, by decide, _, rfl⟩

theorem witness_SolvpTruncatesAndReadsBack :
    1 ≤ (7999999#32).toNat ∧ (7999999#32).toNat ≤ 8000000 ∧ ∃ t, exec (.solvp 7999999#32) start = .next t :=
  ⟨by decide, by decide, _, rfl⟩

theorem witness_SameWaveformTwoConfigurations :
    (500#32).toNat * (2000#32).toNat = 1000000 ∧ (∃ t, exec (.solvf 500#32) start = .next t) ∧
    (∃ u, exec (.solvp 2000#32) start = .next u) := ⟨by decide, ⟨_, rfl⟩, ⟨_, rfl⟩⟩

theorem witness_SolversReadNoState :
    (∃ t t', exec (.solvf 500#32) start = .next t ∧ exec (.solvf 500#32) State.reset = .next t' ∧
      t.rsp = some ⟨.ok, 0x13E7F#64⟩) ∧
    (∃ t t', exec (.solvp 2000#32) start = .next t ∧ exec (.solvp 2000#32) State.reset = .next t' ∧
      t.rsp = some ⟨.ok, 0x207CF#64⟩) := ⟨⟨_, _, rfl, rfl, rfl⟩, ⟨_, _, rfl, rfl, rfl⟩⟩

theorem witness_RdfFollowsItsRule :
    (0#16).toNat < 1 ∧ (6#16).toNat > 5 ∧ (1 ≤ (1#16).toNat ∧ (5#16).toNat ≤ 5) ∧ DIV (1#16).toNat = some 1 ∧
    DIV (2#16).toNat = some 8 ∧ ((15999#16).toNat + 1) * 1 = ((1999#16).toNat + 1) * 8 ∧
    Answers (.rdf 1#16 15999#16) start 0x407F400000000000#64 :=
  ⟨by decide, by decide, by decide, rfl, rfl, by decide, rfl⟩

theorem witness_RdpFollowsItsRule : (0#16).toNat < 1 ∧ (6#16).toNat > 5 ∧ 1 ≤ (5#16).toNat ∧ (5#16).toNat ≤ 5 := by decide

/-- The worked `f64` example, N = 8,000,000, D = 3, e = 21. -/
theorem witness_F64RoundingProcedure :
    0 < 8000000 ∧ 0 < 3 ∧ (2 : Rat) ^ (21 : Int) * (3 : Nat) ≤ (8000000 : Nat) ∧
    ((8000000 : Nat) : Rat) < (2 : Rat) ^ (21 + 1 : Int) * (3 : Nat) ∧ (-1022 : Int) ≤ 21 ∧ (21 : Int) ≤ 52 := by norm_num

theorem witness_FrequencyIsNearestBinary64 :
    Prescaler.ofOrdinal (1#16).toNat = some .by1 ∧ Prescaler.ofOrdinal (5#16).toNat = some .by1024 ∧
    f64PositiveNormal 0x4144585555555556#64 := ⟨rfl, rfl, by decide, by decide, by decide⟩

theorem witness_FrequencyExactIffOddPartDivides : Prescaler.ofOrdinal (5#16).toNat = some .by1024 := rfl

theorem witness_PeriodIsExact : Prescaler.ofOrdinal (1#16).toNat = some .by1 := rfl

theorem witness_TwoDivisionsRoundOnce :
    Prescaler.ofOrdinal (3#16).toNat = some .by64 ∧
    ∃ first : Rat, first = f64Value (f64 8000000 ((2#16).toNat + 1)) := ⟨rfl, _, rfl⟩

theorem witness_ReaderResultsInRange : 1 ≤ (1#16).toNat ∧ (5#16).toNat ≤ 5 := by decide

theorem witness_ReadersIgnoreConfiguration :
    (∃ t t', exec (.rdf 5#16 65535#16) start = .next t ∧ exec (.rdf 5#16 65535#16) State.reset = .next t') ∧
    (∃ t t', exec (.rdp 0#16 0#16) start = .next t ∧ exec (.rdp 0#16 0#16) State.reset = .next t') :=
  ⟨⟨_, _, rfl, rfl⟩, ⟨_, _, rfl, rfl⟩⟩

theorem witness_SetpsFollowsItsRule :
    (0#32).toNat < 1 ∧ (6#32).toNat > 5 ∧ (1 ≤ (1#32).toNat ∧ (5#32).toNat ≤ 5) ∧
    (∃ t, exec (.setps 5#32) start = .next t ∧ t.rsp = some ⟨.ok, 0x50309#64⟩) ∧
    ∃ s : State, s.presc = 1#3 ∧ s.cmp = 15999#16 :=
  ⟨by decide, by decide, by decide, ⟨_, rfl, rfl⟩, ⟨1#3, 15999#16, none, []⟩, rfl, rfl⟩

theorem witness_SetcvFollowsItsRule :
    (65536#32).toNat > 65535 ∧ (65535#32).toNat ≤ 65535 ∧ (∃ t, exec (.setcv 0#32) start = .next t) ∧
    ∃ s : State, s.presc = 5#3 ∧ s.cmp = 15999#16 :=
  ⟨by decide, by decide, ⟨_, rfl⟩, ⟨5#3, 15999#16, none, []⟩, rfl, rfl⟩

theorem witness_OverridesReachEveryPair :
    1 ≤ (5#32).toNat ∧ (5#32).toNat ≤ 5 ∧ (65535#32).toNat ≤ 65535 := by decide

theorem witness_AccessSummary :
    (∃ t, exec (.rdf 1#16 0#16) start = .next t) ∧ (∃ t, exec (.setps 6#32) start = .next t ∧ t.rsp = some ⟨.error .outOfRange, 0#64⟩) ∧
    (∃ t t', exec (.setps 5#32) start = .next t ∧ exec (.setps 5#32) { start with presc := 1#3 } = .next t' ∧
      start.cmp = { start with presc := 1#3 }.cmp ∧ t.rsp = some ⟨.ok, 0x50309#64⟩) ∧
    (∃ t t', exec (.setcv 0#32) start = .next t ∧ exec (.setcv 0#32) { start with cmp := 5#16 } = .next t' ∧
      start.presc = { start with cmp := 5#16 }.presc ∧ t.rsp = some ⟨.ok, 0x30000#64⟩) ∧
    (∃ t, step (at' [.command (7#3 ++ 0#32 : BitVec 35)]) = .next t) :=
  ⟨⟨_, rfl⟩, ⟨_, rfl, rfl⟩, ⟨_, _, rfl, rfl, rfl, rfl⟩, ⟨_, _, rfl, rfl, rfl, rfl⟩, ⟨_, rfl⟩⟩

theorem witness_CommandsAreIdempotent : ∃ t, exec (.setps 5#32) start = .next t := ⟨_, rfl⟩

end Sys2Proof.Tests
end

section
/-! PROOFS. The statements of spec/00_scope.md: the step and its answer (R8, R10, R64, R74, R210), and the rounding of the
solver (R7, R112). -/

namespace Sys2Proof.Machine

/-! ### What serving one event does -/

@[simp] theorem State.rspValid_eq (s : State) : s.rspValid = s.rsp.isSome := rfl

/-- A word that decodes runs its command, and nothing else (R74). -/
theorem accept_of_decode_ok {cmd : Cmd} {i : Instr} (s : State) (h : decode cmd = .ok i) : accept cmd s = exec i s := by
  unfold accept; rw [h]

/-- An accepted word is answered, whether it decodes or not, and the host's events are left alone. -/
theorem accept_answers (cmd : Cmd) (s : State) :
    ∃ t r, accept cmd s = .next t ∧ t.rsp = some r ∧ t.host = s.host := by
  rcases accept_cases cmd s with ⟨i, -, hi⟩ | ⟨e, -, he⟩
  · obtain ⟨t, r, ht, hrsp, hhost⟩ := exec_answers i s
    exact ⟨t, r, hi.trans ht, hrsp, hhost⟩
  · exact ⟨_, _, he, s.raise_rsp .illegalOp, s.raise_host .illegalOp⟩

/-- Every event is served to a next state with the host's other events as they were, and a response is presented in it
exactly when the event was a command that no reset discards (R28, R201). -/
theorem serve_answers_iff_command (ev : HostEvent) (s : State) :
    ∃ t, serve ev s = .next t ∧ t.host = s.host ∧ (t.rspValid = true ↔ ∃ cmd, ev = .command cmd) := by
  cases ev with
  | idle => exact ⟨s.wait, rfl, s.wait_host, by simp⟩
  | command cmd =>
    obtain ⟨t, r, ht, hrsp, hhost⟩ := accept_answers cmd s
    exact ⟨t, ht, hhost, by simp [hrsp]⟩
  | reset held => exact ⟨s.takeReset, rfl, s.takeReset_host, by simp⟩
  | commandThenReset cmd => exact ⟨s.takeReset, rfl, s.takeReset_host, by simp⟩

/-! ### The statements -/

/-- Settles O18, by the event the step takes: none, where the block waits, or the first of the list, which is served. -/
theorem everyStepAnswersExactlyItsCommand : Obligations.EveryStepAnswersExactlyItsCommand := by
  intro s
  cases hs : s.host with
  | nil => exact ⟨s.wait, step_nil s hs, by simp [hs], by simp⟩
  | cons ev rest =>
    obtain ⟨t, ht, hhost, hvalid⟩ := serve_answers_iff_command ev { s with host := rest }
    exact ⟨t, (step_cons s ev rest hs).trans ht, hhost, hvalid.trans (by simp)⟩

/-- Settles O36: `a / b + 1 / 2` is the one fraction `(2 * a + b) / (2 * b)`, whose floor is the natural-number division. -/
theorem roundHazIsFloorOfHalfMore : Obligations.RoundHazIsFloorOfHalfMore := by
  intro a b hb
  have hb' : (b : Rat) ≠ 0 := by exact_mod_cast hb.ne'
  have one_fraction : (a : Rat) / b + 1 / 2 = ((2 * a + b : Nat) : Rat) / (2 * b : Nat) := by
    push_cast; field_simp
  rw [one_fraction, Rat.floor_natCast_div_natCast]
  simp [roundHaz]

/-- Settles O15: the step serves the first event, and the word of that event decodes. -/
theorem stepExecutesPresentedCommand : Obligations.StepExecutesPresentedCommand := by
  intro s cmd rest i hs hd
  calc step s = accept cmd { s with host := rest } := step_cons s _ rest hs
    _ = exec i { s with host := rest } := accept_of_decode_ok _ hd

end Sys2Proof.Machine
end

section
/-! PROOFS. The statements of spec/10_state.md: the two registers, reset, the ports, and what each command reads and writes
(R20 to R31). -/

namespace Sys2Proof.Machine

/-! ### Placing and decoding a command word -/

/-- The decoder undoes the encoder (R60, R67, R74). -/
theorem decode_encode (i : Instr) : decode (encode i) = .ok i := by
  cases i <;> simp [encode, decode, Instr.opcode, Instr.argWord]

/-- The reserved opcodes decode to no command (R69). -/
theorem decode_reserved {op : Op} (h : op = 0#3 ∨ op = 7#3) (arg : Arg) :
    decode (op ++ arg : BitVec 35) = .error (.reservedOpcode op) := by
  rcases h with rfl | rfl <;> simp [decode]

/-- A table word at least as wide as a command word holds every command word (log 8). -/
theorem tableCommand_toNat {nbits : Nat} (h : 35 ≤ nbits) (cmd : Cmd) : tableCommand nbits cmd.toNat = some cmd := by
  have fits : cmd.toNat % 2 ^ nbits = cmd.toNat :=
    Nat.mod_eq_of_lt (cmd.isLt.trans_le (Nat.pow_le_pow_right (by decide) h))
  simp [tableCommand, fits, cmd.isLt]

/-- Such a word becomes the host's next event, and nothing else changes (log 1). -/
theorem withFetchWord_toNat {nbits : Nat} (h : 35 ≤ nbits) (s : State) (cmd : Cmd) :
    s.withFetchWord nbits cmd.toNat = { s with host := .command cmd :: s.host } := by
  simp [State.withFetchWord, State.present, tableCommand_toNat h]

theorem step_withFetchWord_encode {nbits : Nat} (h : 35 ≤ nbits) (s : State) (i : Instr) :
    step (s.withFetchWord nbits (encode i).toNat) = exec i s := by
  rw [withFetchWord_toNat h]
  exact stepExecutesPresentedCommand _ (encode i) s.host i rfl (decode_encode i)

/-! ### What a step can leave -/

/-- What an accepted word can do: `exec_cases`, with a reserved opcode among the failures. -/
theorem accept_outcomes (cmd : Cmd) (s : State) :
    (∃ e, accept cmd s = .next (s.raise e)) ∨ (∃ d, accept cmd s = .next (s.respondOk d)) ∨
    (∃ o c, (o = s.presc ∨ 1 ≤ o.toNat ∧ o.toNat ≤ 5) ∧ accept cmd s = .next (s.writeCfg o c).respondConfig) := by
  rcases accept_cases cmd s with ⟨i, -, hi⟩ | ⟨-, -, he⟩
  · rw [hi]; exact exec_cases i s
  · exact .inl ⟨_, he⟩

/-- The block waits, is reset, or serves a command that fails, answers, or configures (R26, R28, R201). -/
theorem serve_next_cases {ev : HostEvent} {s t : State} (h : serve ev s = .next t) :
    t = s.wait ∨ (ev.resets = true ∧ t = s.takeReset) ∨ (∃ e, t = s.raise e) ∨ (∃ d, t = s.respondOk d) ∨
    (∃ o c, (o = s.presc ∨ 1 ≤ o.toNat ∧ o.toNat ≤ 5) ∧ t = (s.writeCfg o c).respondConfig) := by
  cases ev with
  | idle => exact .inl (Host.Outcome.next.inj h).symm
  | reset held => exact .inr (.inl ⟨rfl, (Host.Outcome.next.inj h).symm⟩)
  | commandThenReset cmd => exact .inr (.inl ⟨rfl, (Host.Outcome.next.inj h).symm⟩)
  | command cmd =>
    replace h : accept cmd s = .next t := h
    rcases accept_outcomes cmd s with ⟨e, he⟩ | ⟨d, hd⟩ | ⟨o, c, ho, hc⟩
    · exact .inr (.inr (.inl ⟨e, Host.Outcome.next.inj (h.symm.trans he)⟩))
    · exact .inr (.inr (.inr (.inl ⟨d, Host.Outcome.next.inj (h.symm.trans hd)⟩)))
    · exact .inr (.inr (.inr (.inr ⟨o, c, ho, Host.Outcome.next.inj (h.symm.trans hc)⟩)))

/-- A step takes an event that is there and serves it, or it waits. -/
theorem step_next_cases {s t : State} (h : step s = .next t) :
    t = s.wait ∨ ∃ ev rest, s.host = ev :: rest ∧ serve ev { s with host := rest } = .next t := by
  cases hs : s.host with
  | nil => exact .inl (Host.Outcome.next.inj (h.symm.trans (step_nil s hs)))
  | cons ev rest => exact .inr ⟨ev, rest, rfl, (step_cons s ev rest hs).symm.trans h⟩

/-! ### The two invariants -/

theorem Response.legal_ok (d : Data) : Response.Legal ⟨.ok, d⟩ := fun h => absurd rfl h

theorem Response.legal_error (e : CmdError) : Response.Legal ⟨.error e, 0#64⟩ := fun _ => rfl

theorem State.inv_of_no_response {s : State} (hp : s.presc.toNat ≤ 5) (hr : s.rsp = none) : s.Inv :=
  ⟨hp, fun r h => by rw [hr] at h; cases h⟩

theorem State.inv_of_response {s : State} {r : Response} (hp : s.presc.toNat ≤ 5) (hr : s.rsp = some r)
    (hl : r.Legal) : s.Inv :=
  ⟨hp, fun _ h => Option.some.inj (hr.symm.trans h) ▸ hl⟩

/-- No event breaks the invariant (R23, R64). -/
theorem serve_keeps_inv {ev : HostEvent} {s t : State} (hs : s.Inv) (h : serve ev s = .next t) : t.Inv := by
  obtain ⟨hp, -⟩ := hs
  rcases serve_next_cases h with rfl | ⟨-, rfl⟩ | ⟨e, rfl⟩ | ⟨d, rfl⟩ | ⟨o, c, ho, rfl⟩
  · exact State.inv_of_no_response hp s.wait_rsp
  · exact State.inv_of_no_response (by simp) s.takeReset_rsp
  · exact State.inv_of_response hp (s.raise_rsp e) (Response.legal_error e)
  · exact State.inv_of_response hp (s.respondOk_rsp d) (Response.legal_ok d)
  · have ho' : o.toNat ≤ 5 := by
      rcases ho with rfl | ⟨-, h5⟩
      · exact hp
      · exact h5
    exact State.inv_of_response ho' (State.respondConfig_rsp _) (Response.legal_ok _)

/-- An event that is no reset keeps an ordinal that has a divisor (R23). -/
theorem serve_keeps_configured {ev : HostEvent} {s t : State} (hs : s.Configured) (hev : ev.resets = false)
    (h : serve ev s = .next t) : t.Configured := by
  rcases serve_next_cases h with rfl | ⟨hr, rfl⟩ | ⟨e, rfl⟩ | ⟨d, rfl⟩ | ⟨o, c, ho, rfl⟩
  · exact hs
  · rw [hev] at hr; cases hr
  · exact hs
  · exact hs
  · rcases ho with rfl | ho
    · exact hs
    · exact ho

/-! ### What a command reads and writes -/

/-- The rows of R25, each with the effects its command may have: `f` takes a state to the one after the command, and all it
may use of that state is what `raise`, `respondOk` and `respondConfig` use. -/
inductive AccessRow : Instr → (State → State) → Prop
  | fails (i : Instr) (e : CmdError) : AccessRow i fun s => s.raise e
  | solvf (x : Arg) (p : Prescaler) (c : CompareValue) :
      AccessRow (.solvf x) fun s => (s.writeCfg p.ordinal c).respondConfig
  | solvp (x : Arg) (p : Prescaler) (c : CompareValue) :
      AccessRow (.solvp x) fun s => (s.writeCfg p.ordinal c).respondConfig
  | rdf (o c : Half) (d : Data) : AccessRow (.rdf o c) fun s => s.respondOk d
  | rdp (o c : Half) (d : Data) : AccessRow (.rdp o c) fun s => s.respondOk d
  | setps (n : Arg) (p : Prescaler) : AccessRow (.setps n) fun s => (s.writePresc p.ordinal).respondConfig
  | setcv (v : Arg) (c : CompareValue) : AccessRow (.setcv v) fun s => (s.writeCmp c).respondConfig

/-- Which effect of its row a command has is chosen by its operand alone: it is the same effect from every state. -/
theorem exec_accessRow (i : Instr) : ∃ f, AccessRow i f ∧ ∀ s, exec i s = .next (f s) := by
  cases i with
  | solvf x =>
    cases hx : freqInDomain x with
    | true => exact ⟨_, .solvf x _ _, fun s => if_pos hx⟩
    | false => exact ⟨_, .fails _ _, fun s => if_neg (by simp [hx])⟩
  | solvp x =>
    cases hx : periodInDomain x with
    | true => exact ⟨_, .solvp x _ _, fun s => if_pos hx⟩
    | false => exact ⟨_, .fails _ _, fun s => if_neg (by simp [hx])⟩
  | rdf o c =>
    cases ho : readerPrescaler o with
    | some p => exact ⟨_, .rdf o c (f64 Config.baseClock (ticks p c)), fun s => by simp only [exec, execRdf, ho]⟩
    | none => exact ⟨_, .fails _ .invalidPrescaler, fun s => by simp only [exec, execRdf, ho]⟩
  | rdp o c =>
    cases ho : readerPrescaler o with
    | some p => exact ⟨_, .rdp o c (f64 (ticks p c) Config.ticksPerUs), fun s => by simp only [exec, execRdp, ho]⟩
    | none => exact ⟨_, .fails _ .invalidPrescaler, fun s => by simp only [exec, execRdp, ho]⟩
  | setps n =>
    cases hn : prescalerOperand n with
    | some p => exact ⟨_, .setps n p, fun s => by simp only [exec, execSetps, hn]⟩
    | none => exact ⟨_, .fails _ .outOfRange, fun s => by simp only [exec, execSetps, hn]⟩
  | setcv v =>
    cases hv : compareOperand v with
    | some c => exact ⟨_, .setcv v c, fun s => by simp only [exec, execSetcv, hv]⟩
    | none => exact ⟨_, .fails _ .outOfRange, fun s => by simp only [exec, execSetcv, hv]⟩

theorem exists_accessRow_of_exec {i : Instr} {s t : State} (h : exec i s = .next t) :
    ∃ f, AccessRow i f ∧ t = f s := by
  obtain ⟨f, hf, hexec⟩ := exec_accessRow i
  exact ⟨f, hf, Host.Outcome.next.inj (h.symm.trans (hexec s))⟩

/-- A successful SOLVF, SOLVP or SETPS writes the ordinal of a prescaler (R23). -/
theorem AccessRow.configured {i : Instr} {f : State → State} (hf : AccessRow i f)
    (hi : (∃ x, i = .solvf x) ∨ (∃ x, i = .solvp x) ∨ (∃ n, i = .setps n)) {s : State} {d : Data}
    (hd : (f s).rsp = some ⟨.ok, d⟩) : (f s).Configured := by
  cases hf with
  | fails i e => simp at hd
  | solvf x p c => exact p.ordinal_range
  | solvp x p c => exact p.ordinal_range
  | setps n p => exact p.ordinal_range
  | rdf o c d => simp at hi
  | rdp o c d => simp at hi
  | setcv v c => simp at hi

/-- The write column of R25. -/
theorem AccessRow.frame {i : Instr} {f : State → State} (hf : AccessRow i f) (s : State) :
    (f s).host = s.host ∧
    ((∃ o c, i = .rdf o c ∨ i = .rdp o c) → (f s).presc = s.presc ∧ (f s).cmp = s.cmp) ∧
    ((∃ n, i = .setps n) → (f s).cmp = s.cmp) ∧ ((∃ v, i = .setcv v) → (f s).presc = s.presc) ∧
    (∀ e d, (f s).rsp = some ⟨.error e, d⟩ → (f s).presc = s.presc ∧ (f s).cmp = s.cmp) := by
  cases hf <;> simp

/-- The read column of R25: two states that agree on what the command reads get one response and the same writes. -/
theorem AccessRow.reads_only {i : Instr} {f : State → State} (hf : AccessRow i f) {s s' : State}
    (hcmp : (∃ n, i = .setps n) → s.cmp = s'.cmp) (hpresc : (∃ v, i = .setcv v) → s.presc = s'.presc) :
    (f s).rsp = (f s').rsp ∧
    (∀ d, (f s).rsp = some ⟨.ok, d⟩ →
      (((∃ x, i = .solvf x ∨ i = .solvp x) → (f s).presc = (f s').presc ∧ (f s).cmp = (f s').cmp) ∧
        ((∃ n, i = .setps n) → (f s).presc = (f s').presc) ∧ ((∃ v, i = .setcv v) → (f s).cmp = (f s').cmp))) := by
  cases hf with
  | fails i e => simp
  | solvf x p c => simp
  | solvp x p c => simp
  | rdf o c d => simp
  | rdp o c d => simp
  | setps n p => simp [hcmp ⟨n, rfl⟩]
  | setcv v c => simp [hpresc ⟨v, rfl⟩]

/-- A reserved opcode fails whatever its operand (R69). -/
theorem accept_reserved {op : Op} (h : op = 0#3 ∨ op = 7#3) (arg : Arg) (s : State) :
    accept (op ++ arg : BitVec 35) s = .next (s.raise .illegalOp) := by
  unfold accept; rw [decode_reserved h]

/-! ### The response port is not read -/

theorem accept_ignores_rsp (cmd : Cmd) (s : State) (r : Option Response) :
    accept cmd { s with rsp := r } = accept cmd s := by
  unfold accept
  split
  · exact exec_ignores_rsp _ s r
  · rfl

theorem serve_ignores_rsp (ev : HostEvent) (s : State) (r : Option Response) :
    serve ev { s with rsp := r } = serve ev s := by
  cases ev with
  | idle => rfl
  | command cmd => exact accept_ignores_rsp cmd s r
  | reset held => rfl
  | commandThenReset cmd => rfl

/-! ### An accepted command -/

/-- A command is accepted when the next event presents it and `rst` is not asserted with it (R28, R201). -/
theorem State.accepted_cases {s : State} {cmd : Cmd} (h : s.accepted = some cmd) :
    ∃ rest, s.host = .command cmd :: rest ∨ s.host = .commandThenReset cmd :: rest := by
  unfold State.accepted State.reqReady State.rst State.presented at h
  cases hs : s.host with
  | nil => simp [hs] at h
  | cons ev rest =>
    cases ev with
    | idle => simp [hs] at h
    | command c => exact ⟨rest, .inl (by simpa [hs] using h)⟩
    | reset held => simp [hs] at h
    | commandThenReset c => exact ⟨rest, .inr (by simpa [hs] using h)⟩

/-- The request ports while a command is accepted (R28, R60). -/
theorem State.request_ports_of_accepted {s : State} {cmd : Cmd} (h : s.accepted = some cmd) :
    s.reqValid = true ∧ s.reqReady = true ∧ s.reqOp = some (opField cmd) ∧ s.reqArg = some (argField cmd) := by
  unfold State.accepted at h
  split at h
  · next ready => simp [State.reqValid, State.reqOp, State.reqArg, h, ready]
  · cases h

theorem Status.code_ok_iff (st : Status) : st.code = 0#2 ↔ st = .ok := by
  cases st with
  | ok => simp [Status.code]
  | error e => cases e <;> simp [Status.code]

/-- The answer to an accepted word is a legal response (R64). -/
theorem accept_answers_legal (cmd : Cmd) (s : State) :
    ∃ t r, accept cmd s = .next t ∧ t.host = s.host ∧ t.rsp = some r ∧ r.Legal := by
  rcases accept_outcomes cmd s with ⟨e, h⟩ | ⟨d, h⟩ | ⟨o, c, -, h⟩
  · exact ⟨_, _, h, rfl, rfl, Response.legal_error e⟩
  · exact ⟨_, _, h, rfl, rfl, Response.legal_ok d⟩
  · exact ⟨_, _, h, rfl, rfl, Response.legal_ok _⟩

/-! ### The solvers' results -/

theorem exec_solvf_in {f : Arg} (h : 1 ≤ f.toNat ∧ f.toNat ≤ 8000000) (s : State) :
    exec (.solvf f) s =
      .next (s.writeCfg (selF f.toNat).ordinal (narrowCompare (cmpF (selF f.toNat) f.toNat))).respondConfig :=
  if_pos ((freqInDomain_iff f).mpr h)

theorem exec_solvf_out {f : Arg} (h : ¬(1 ≤ f.toNat ∧ f.toNat ≤ 8000000)) (s : State) :
    exec (.solvf f) s = .next (s.raise .outOfRange) :=
  if_neg (mt (freqInDomain_iff f).mp h)

theorem exec_solvp_in {p : Arg} (h : 1 ≤ p.toNat ∧ p.toNat ≤ 8000000) (s : State) :
    exec (.solvp p) s =
      .next (s.writeCfg (selP p.toNat).ordinal (narrowCompare (cmpP (selP p.toNat) p.toNat))).respondConfig :=
  if_pos ((periodInDomain_iff p).mpr h)

theorem exec_solvp_out {p : Arg} (h : ¬(1 ≤ p.toNat ∧ p.toNat ≤ 8000000)) (s : State) :
    exec (.solvp p) s = .next (s.raise .outOfRange) :=
  if_neg (mt (periodInDomain_iff p).mp h)

/-- A quotient between 1/2 and 65536 + 1/2 rounds to a count that fits once 1 is taken off. -/
theorem roundHaz_range {a b : Nat} (hb : 0 < b) (lo : b ≤ 2 * a) (hi : 2 * a < 131073 * b) :
    1 ≤ roundHaz a b ∧ roundHaz a b ≤ 65536 := by
  unfold roundHaz
  constructor
  · rw [Nat.le_div_iff_mul_le (by omega)]; omega
  · rw [← Nat.lt_succ_iff, Nat.div_lt_iff_lt_mul (by omega)]; omega

/-- On every rung SOLVF's rounded quotient is in 1..65536 (R114). -/
theorem roundHaz_selF_range {f : Nat} (h1 : 1 ≤ f) (h2 : f ≤ 8000000) :
    1 ≤ roundHaz (8000000 / (selF f).div) f ∧ roundHaz (8000000 / (selF f).div) f ≤ 65536 := by
  rcases selF_cases f h1 with ⟨hp, _⟩ | ⟨hp, _, _⟩ | ⟨hp, _, _⟩ | ⟨hp, _⟩ <;> rw [hp] <;>
    exact roundHaz_range h1 (by simp only [Prescaler.div]; omega) (by simp only [Prescaler.div]; omega)

/-- On every rung SOLVP's truncated quotient is in 1..65536 (R118). -/
theorem quotient_selP_range {p : Nat} (h1 : 1 ≤ p) (h2 : p ≤ 8000000) :
    1 ≤ p * 8 / (selP p).div ∧ p * 8 / (selP p).div ≤ 65536 := by
  rcases selP_cases p h1 with ⟨hp, _⟩ | ⟨hp, _, _⟩ | ⟨hp, _, _⟩ | ⟨hp, _⟩ <;> rw [hp] <;>
    simp only [Prescaler.div] <;> omega

/-- One less than a count in 1..65536 is stored as it is. -/
theorem narrowCompare_pred_add_one {n : Nat} (h : 1 ≤ n ∧ n ≤ 65536) : (narrowCompare (n - 1)).toNat + 1 = n := by
  rw [narrowCompare_toNat (by omega)]; omega

/-- Both ports or neither (R29, R206), for an operation that configures `p` with one less than the count `n` where its operand
is in the solvers' domain, and raises OutOfRange elsewhere. -/
theorem both_ports_or_neither (s : State) {res : Result} {x : Arg} {t : State} {p : Prescaler} {n : Nat} (h : res = .next t)
    (hin : 1 ≤ x.toNat ∧ x.toNat ≤ 8000000 → res = .next (s.writeCfg p.ordinal (narrowCompare (n - 1))).respondConfig)
    (hn : 1 ≤ x.toNat ∧ x.toNat ≤ 8000000 → 1 ≤ n ∧ n ≤ 65536)
    (hout : ¬(1 ≤ x.toNat ∧ x.toNat ≤ 8000000) → res = .next (s.raise .outOfRange)) :
    (1 ≤ x.toNat ∧ x.toNat ≤ 8000000 ∧ t.cfgPresc = p.ordinal ∧ t.cfgCmp.toNat + 1 = n) ∨
    ((x.toNat < 1 ∨ x.toNat > 8000000) ∧ t.cfgPresc = s.cfgPresc ∧ t.cfgCmp = s.cfgCmp ∧ t.rspStatus = some 1#2) := by
  by_cases hx : 1 ≤ x.toNat ∧ x.toNat ≤ 8000000
  · obtain rfl := Host.Outcome.next.inj (h.symm.trans (hin hx))
    exact .inl ⟨hx.1, hx.2, rfl, narrowCompare_pred_add_one (hn hx)⟩
  · obtain rfl := Host.Outcome.next.inj (h.symm.trans (hout hx))
    exact .inr ⟨by omega, rfl, rfl, rfl⟩

/-! ### The statements -/

/-- Settles O27: a wait leaves the ordinal and takes the response away; any event keeps the invariant. -/
theorem everyStepKeepsInv : Obligations.EveryStepKeepsInv := by
  intro s t hs h
  rcases step_next_cases h with rfl | ⟨ev, rest, -, hserve⟩
  · exact State.inv_of_no_response hs.1 s.wait_rsp
  · exact serve_keeps_inv (show State.Inv { s with host := rest } from hs) hserve

/-- Settles O16: a 35-bit word fits both table words, and decodes back to the command it encodes. -/
theorem presentedWordRunsNext : Obligations.PresentedWordRunsNext := fun s i =>
  ⟨step_withFetchWord_encode (by decide) s i, step_withFetchWord_encode (by decide) s i⟩

/-- Settles O20, by the two events that present an accepted command: the one that is answered, and the one that a reset
overtakes. -/
theorem acceptedCommandHasOneResponse : Obligations.AcceptedCommandHasOneResponse := by
  intro s cmd h
  obtain ⟨hvalid, hready, hop, harg⟩ := State.request_ports_of_accepted h
  refine ⟨hvalid, hready, hop, harg, ?_⟩
  obtain ⟨rest, hs | hs⟩ := State.accepted_cases h
  · obtain ⟨t, r, ht, hhost, hrsp, hlegal⟩ := accept_answers_legal cmd { s with host := rest }
    refine ⟨t, (step_cons s _ rest hs).trans ht, by simp [hhost, hs], fun _ => ?_, fun hno => absurd ⟨rest, hs⟩ hno⟩
    refine ⟨r.status.code, r.data, by simp [State.rspStatus, hrsp], by simp [State.rspData, hrsp], fun hst => ?_⟩
    exact hlegal (mt (Status.code_ok_iff r.status).mpr hst)
  · refine ⟨State.takeReset { s with host := rest }, step_cons s _ rest hs, by simp [hs], ?_, fun _ => ⟨rfl, rfl, rfl⟩⟩
    rintro ⟨rest', hs'⟩
    rw [hs] at hs'; cases hs'

/-- Settles O22: each solver writes both fields together in its domain, where its quotient fits, and none outside it. -/
theorem solverUpdatesBothPortsAtOnce : Obligations.SolverUpdatesBothPortsAtOnce := by
  intro s t cmd rest x hs hstep
  constructor
  · intro hd
    rw [stepExecutesPresentedCommand s cmd rest _ hs hd] at hstep
    exact both_ports_or_neither { s with host := rest } hstep (fun hx => exec_solvf_in hx _)
      (fun hx => roundHaz_selF_range hx.1 hx.2) (fun hx => exec_solvf_out hx _)
  · intro hd
    rw [stepExecutesPresentedCommand s cmd rest _ hs hd] at hstep
    exact both_ports_or_neither { s with host := rest } hstep (fun hx => exec_solvp_in hx _)
      (fun hx => quotient_selP_range hx.1 hx.2) (fun hx => exec_solvp_out hx _)

/-- Settles O24, by the event the step takes: waiting and resetting overwrite the port, a command does not look at it. -/
theorem responsePortIsNotRead : Obligations.ResponsePortIsNotRead := by
  rintro ⟨presc, cmp, rsp, host⟩ r
  cases host with
  | nil => exact (step_nil _ rfl).trans (step_nil _ rfl).symm
  | cons ev rest =>
    calc step ⟨presc, cmp, r, ev :: rest⟩
      _ = serve ev ⟨presc, cmp, r, rest⟩ := step_cons _ ev rest rfl
      _ = serve ev ⟨presc, cmp, rsp, rest⟩ := serve_ignores_rsp ev ⟨presc, cmp, rsp, rest⟩ r
      _ = step ⟨presc, cmp, rsp, ev :: rest⟩ := (step_cons ⟨presc, cmp, rsp, _⟩ ev rest rfl).symm

/-- Settles O28: only a reset writes ordinal 0 over another, and a successful SOLVF, SOLVP or SETPS writes a prescaler's. -/
theorem ordinalZeroOnlyBeforeConfiguration : Obligations.OrdinalZeroOnlyBeforeConfiguration := by
  constructor
  · intro s t hs h hnoReset
    rcases step_next_cases h with rfl | ⟨ev, rest, hhost, hserve⟩
    · exact hs
    · exact serve_keeps_configured (show State.Configured { s with host := rest } from hs) (hnoReset ev rest hhost) hserve
  · intro i s t d hi h hd
    obtain ⟨f, hf, rfl⟩ := exists_accessRow_of_exec h
    exact hf.configured hi hd

/-- Settles O54: every command has an effect of its row, the same one from every state; a reserved opcode only fails. -/
theorem accessSummary : Obligations.AccessSummary := by
  refine ⟨?_, ?_, ?_⟩
  · intro i s t h
    obtain ⟨f, hf, rfl⟩ := exists_accessRow_of_exec h
    exact hf.frame s
  · intro i s s' t t' h h' hcmp hpresc
    obtain ⟨f, hf, hexec⟩ := exec_accessRow i
    obtain rfl := Host.Outcome.next.inj (h.symm.trans (hexec s))
    obtain rfl := Host.Outcome.next.inj (h'.symm.trans (hexec s'))
    exact hf.reads_only hcmp hpresc
  · intro s t op arg rest hop hs h
    have fails : step s = .next (State.raise { s with host := rest } .illegalOp) :=
      (step_cons s _ rest hs).trans (accept_reserved hop arg _)
    obtain rfl := Host.Outcome.next.inj (h.symm.trans fails)
    exact ⟨rfl, rfl⟩

/-- Settles O1: every value is read off the definition of `State.reset`. -/
theorem resetLeavesSpecValues : Obligations.ResetLeavesSpecValues := ⟨rfl, rfl, rfl, rfl, rfl, rfl⟩

/-- Settles O17, by the equations of the step for no event and for a first event. -/
theorem waitingChangesNoRegister : Obligations.WaitingChangesNoRegister := fun s =>
  ⟨fun hs => step_nil s hs, fun rest hs => step_cons s .idle rest hs⟩

/-- Settles O26: ordinal 0, and no response that could be illegal. -/
theorem invHoldsAtReset : Obligations.InvHoldsAtReset := State.inv_of_no_response (by decide) rfl

end Sys2Proof.Machine
end

section
/-! PROOFS. The statements of spec/20_memory.md: a command issued again at once (R45), and a step and the host's later
events (R46). -/

namespace Sys2Proof.Machine

/-- An effect writes values that do not depend on what it writes over, so a second time it changes nothing (R45). -/
theorem AccessRow.idempotent {i : Instr} {f : State → State} (hf : AccessRow i f) (s : State) : f (f s) = f s := by
  cases hf <;> rfl

section LaterEvents
variable {s t : State} (later : List HostEvent)

/-- An effect of a command does not look at the host's events. -/
theorem AccessRow.with_host {i : Instr} {f : State → State} (hf : AccessRow i f) :
    f { s with host := later } = { f s with host := later } := by
  cases hf <;> rfl

theorem exec_with_host {i : Instr} (h : exec i s = .next t) :
    exec i { s with host := later } = .next { t with host := later } := by
  obtain ⟨f, hf, hexec⟩ := exec_accessRow i
  obtain rfl := Host.Outcome.next.inj (h.symm.trans (hexec s))
  rw [hexec, hf.with_host]

theorem accept_with_host {cmd : Cmd} (h : accept cmd s = .next t) :
    accept cmd { s with host := later } = .next { t with host := later } := by
  unfold accept at h ⊢
  split at h
  · exact exec_with_host later h
  · cases h; rfl

theorem serve_with_host {ev : HostEvent} (h : serve ev s = .next t) :
    serve ev { s with host := later } = .next { t with host := later } := by
  cases ev with
  | idle => cases h; rfl
  | command cmd => exact accept_with_host later h
  | reset held => cases h; rfl
  | commandThenReset cmd => cases h; rfl

end LaterEvents

/-- Settles O19: the step serves the event alone, and what serves an event passes the later events through. -/
theorem laterEventsDoNotInterfere : Obligations.LaterEventsDoNotInterfere := by
  intro s t ev rest h
  have served : serve ev { s with host := [] } = .next t := (step_cons { s with host := [ev] } ev [] rfl).symm.trans h
  calc step { s with host := ev :: rest }
    _ = serve ev { s with host := rest } := step_cons _ ev rest rfl
    _ = .next { t with host := rest } := serve_with_host (s := { s with host := [] }) rest served

/-- Settles O55: the effect is chosen by the operand alone, so the second issue has the same one, and it is idempotent. -/
theorem commandsAreIdempotent : Obligations.CommandsAreIdempotent := by
  intro i s t h
  obtain ⟨f, hf, hexec⟩ := exec_accessRow i
  obtain rfl := Host.Outcome.next.inj (h.symm.trans (hexec s))
  rw [hexec, hf.idempotent]

end Sys2Proof.Machine
end

section
/-! PROOFS. The statements of spec/30_encoding.md: decoding and encoding (R60 to R70, R74), the assembler and its loop-back (R72,
R73), the TimerConfig image (R66), and the nearest binary64 number (R68, R130). -/

namespace Sys2Proof.Machine

/-! ### Decoding and encoding a word -/

section Decoding
variable (arg : Arg) (o c : Half)

@[simp] theorem decode_solvf : decode (1#3 ++ arg : BitVec 35) = .ok (.solvf arg) := by simp [decode]
@[simp] theorem decode_solvp : decode (2#3 ++ arg : BitVec 35) = .ok (.solvp arg) := by simp [decode]
@[simp] theorem decode_rdf : decode (3#3 ++ arg : BitVec 35) = .ok (.rdf (ordinalField arg) (compareField arg)) := by
  simp [decode]
@[simp] theorem decode_rdp : decode (4#3 ++ arg : BitVec 35) = .ok (.rdp (ordinalField arg) (compareField arg)) := by
  simp [decode]
@[simp] theorem decode_setps : decode (5#3 ++ arg : BitVec 35) = .ok (.setps arg) := by simp [decode]
@[simp] theorem decode_setcv : decode (6#3 ++ arg : BitVec 35) = .ok (.setcv arg) := by simp [decode]

theorem decode_rdf_append : decode (3#3 ++ (o ++ c : BitVec 32) : BitVec 35) = .ok (.rdf o c) := by simp

theorem decode_rdp_append : decode (4#3 ++ (o ++ c : BitVec 32) : BitVec 35) = .ok (.rdp o c) := by simp

end Decoding

/-- The encoder undoes the decoder: a word that decodes has no bit outside the two fields its command keeps (R63, R70). -/
theorem encode_of_decode_append {op : Op} {arg : Arg} {i : Instr} (h : decode (op ++ arg : BitVec 35) = .ok i) :
    encode i = (op ++ arg : BitVec 35) := by
  rcases op_cases op with rfl | rfl | rfl | rfl | rfl | rfl | rfl | rfl
  · rw [decode_reserved (.inl rfl)] at h; cases h
  · rw [decode_solvf] at h; cases h; rfl
  · rw [decode_solvp] at h; cases h; rfl
  · rw [decode_rdf] at h; cases h; exact congrArg (3#3 ++ ·) (arg_eq_append arg)
  · rw [decode_rdp] at h; cases h; exact congrArg (4#3 ++ ·) (arg_eq_append arg)
  · rw [decode_setps] at h; cases h; rfl
  · rw [decode_setcv] at h; cases h; rfl
  · rw [decode_reserved (.inr rfl)] at h; cases h

/-- Settles O6, by the command: its opcode and its operand come back out of the word, and a reader's operand splits. -/
theorem decodeOfEncodeIsTheCommand : Obligations.DecodeOfEncodeIsTheCommand := decode_encode

/-- Settles O5, by the eight opcodes. -/
theorem decodingProcedureOnEveryWord : Obligations.DecodingProcedureOnEveryWord := by
  intro op arg
  rcases op_cases op with rfl | rfl | rfl | rfl | rfl | rfl | rfl | rfl
  · exact decode_reserved (.inl rfl) arg
  · exact decode_solvf arg
  · exact decode_solvp arg
  · exact decode_rdf arg
  · exact decode_rdp arg
  · exact decode_setps arg
  · exact decode_setcv arg
  · exact decode_reserved (.inr rfl) arg

/-- Settles O7: the word is its opcode and its operand. -/
theorem encodeOfDecodeIsTheWord : Obligations.EncodeOfDecodeIsTheWord := by
  intro cmd i h
  rw [← cmd_eq_append cmd] at h ⊢
  exact encode_of_decode_append h

/-! ### The image and its loop-back -/

@[simp] theorem pack_upper (o : PrescOrdinal) (c : CompareValue) : (pack o c).extractLsb' 19 45 = 0#45 := by
  ext i hi
  simp only [pack, BitVec.getElem_extractLsb', BitVec.getLsbD_append]
  simp [show ¬ 19 + i < 16 by omega, show ¬ 19 + i - 16 < 3 by omega]

/-- The number a reader's operand is (R67). -/
theorem halves_toNat (o c : Half) : (o ++ c : BitVec 32).toNat = o.toNat * 65536 + c.toNat := by
  rw [BitVec.toNat_append, ← Nat.shiftLeft_add_eq_or_of_lt c.isLt, Nat.shiftLeft_eq]

/-- The low 32 bits of an image are the reader's operand of that configuration (R67). -/
@[simp] theorem loopBackArg_pack (o : PrescOrdinal) (c : CompareValue) :
    loopBackArg (pack o c) = (o.zeroExtend 16 ++ c : BitVec 32) := by
  apply BitVec.eq_of_toNat_eq
  rw [halves_toNat, loopBackArg, BitVec.extractLsb'_toNat, pack_toNat, BitVec.zeroExtend_eq_setWidth, BitVec.toNat_setWidth,
    Nat.shiftRight_zero]
  omega

/-- What SOLVF, SOLVP, SETPS or SETCV answers with OK is the image of the state after it (R66). -/
theorem AccessRow.ok_data_eq_pack {i : Instr} {f : State → State} (hf : AccessRow i f)
    (hi : (∃ x, i = .solvf x) ∨ (∃ x, i = .solvp x) ∨ (∃ n, i = .setps n) ∨ (∃ v, i = .setcv v)) {s : State} {d : Data}
    (hd : (f s).rsp = some ⟨.ok, d⟩) : d = pack (f s).presc (f s).cmp := by
  cases hf with
  | fails i e => simp at hd
  | solvf x p c => simpa using hd.symm
  | solvp x p c => simpa using hd.symm
  | setps n p => simpa using hd.symm
  | setcv v c => simpa using hd.symm
  | rdf o c d => simp at hi
  | rdp o c d => simp at hi

/-- The words that answer an image are those of four commands (R66). -/
theorem decode_of_answersImage {cmd : Cmd} (h : answersImage cmd = true) :
    ∃ i, decode cmd = .ok i ∧
      ((∃ x, i = .solvf x) ∨ (∃ x, i = .solvp x) ∨ (∃ n, i = .setps n) ∨ (∃ v, i = .setcv v)) := by
  unfold answersImage at h
  cases hd : decode cmd with
  | error e => simp [hd] at h
  | ok i =>
    refine ⟨i, rfl, ?_⟩
    cases i with
    | solvf x => exact .inl ⟨x, rfl⟩
    | solvp x => exact .inr (.inl ⟨x, rfl⟩)
    | setps n => exact .inr (.inr (.inl ⟨n, rfl⟩))
    | setcv v => exact .inr (.inr (.inr ⟨v, rfl⟩))
    | rdf o c => simp [hd] at h
    | rdp o c => simp [hd] at h

/-- A step that serves such a word and answers OK answers the image of the state it leaves. -/
theorem step_image {cmd : Cmd} {s t : State} {rest : List HostEvent} {d : Data} (hs : s.host = .command cmd :: rest)
    (hc : answersImage cmd = true) (h : step s = .next t) (hd : t.rsp = some ⟨.ok, d⟩) : d = pack t.presc t.cmp := by
  obtain ⟨i, hi, four⟩ := decode_of_answersImage hc
  rw [stepExecutesPresentedCommand s cmd rest i hs hi] at h
  obtain ⟨f, hf, rfl⟩ := exists_accessRow_of_exec h
  exact hf.ok_data_eq_pack four hd

/-- Settles O11: the data is `pack` of the state after the command, whose three fields are known. -/
theorem configImageShowsStateAfter : Obligations.ConfigImageShowsStateAfter := by
  refine ⟨fun i s t d four h hd => ?_, rfl⟩
  obtain ⟨f, hf, rfl⟩ := exists_accessRow_of_exec h
  obtain rfl := hf.ok_data_eq_pack four hd
  exact ⟨pack_compare _ _, pack_ordinal _ _, pack_upper _ _⟩

/-! ### The readers' answers and errors -/

section Readers
variable {o : Half} {p : Prescaler} (c : Half) (s : State)

/-- RDF of an ordinal with a divisor (R133). -/
theorem answers_rdf (h : Prescaler.ofOrdinal o.toNat = some p) :
    Answers (.rdf o c) s (f64 Config.baseClock (ticks p c)) := by
  simp [Answers, exec, execRdf, readerPrescaler, h, State.respondOk]

/-- RDP of an ordinal with a divisor (R137). -/
theorem answers_rdp (h : Prescaler.ofOrdinal o.toNat = some p) :
    Answers (.rdp o c) s (f64 (ticks p c) Config.ticksPerUs) := by
  simp [Answers, exec, execRdp, readerPrescaler, h, State.respondOk]

/-- Both readers refuse an ordinal without a divisor (R67, R172). -/
theorem readers_fail (h : ¬(1 ≤ o.toNat ∧ o.toNat ≤ 5)) :
    FailsWith (.rdf o c) s .invalidPrescaler ∧ FailsWith (.rdp o c) s .invalidPrescaler := by
  have no_divisor : readerPrescaler o = none := ofOrdinal_out (by omega)
  simp [FailsWith, exec, execRdf, execRdp, no_divisor, State.raise]

end Readers

/-- Settles O8: the operand's fields are its halves, and the looped-back image is `pack` of the state after the command. -/
theorem readerOperandAndLoopBack : Obligations.ReaderOperandAndLoopBack := by
  refine ⟨fun o c => ⟨decode_rdf_append o c, decode_rdp_append o c⟩, fun o c s h => readers_fail c s h, ?_, ?_⟩
  · intro o c s h1 h5
    obtain ⟨p, hp⟩ := ofOrdinal_isSome h1 h5
    exact ⟨⟨_, answers_rdf c s hp⟩, ⟨_, answers_rdp c s hp⟩⟩
  · intro cmd s t rest d hs hc h hd
    obtain rfl := step_image hs hc h hd
    have operand : (pack t.presc t.cmp).extractLsb' 0 32 = (t.presc.zeroExtend 16 ++ t.cmp : BitVec 32) :=
      loopBackArg_pack t.presc t.cmp
    rw [operand]
    exact ⟨decode_rdf_append _ _, decode_rdp_append _ _⟩

/-! ### The assembler -/

/-- Two halves side by side are the number `o * 65536 + c` (R67, R72). -/
theorem ofNat_append_ofNat {o c : Nat} (hc : c < 2 ^ 16) :
    (BitVec.ofNat 16 o ++ BitVec.ofNat 16 c : BitVec 32) = BitVec.ofNat 32 (o * 65536 + c) := by
  apply BitVec.eq_of_toNat_eq
  rw [halves_toNat, BitVec.toNat_ofNat, BitVec.toNat_ofNat, BitVec.toNat_ofNat]
  omega

/-- A reader of an image's low half-words is encoded with the image's low 32 bits as they are (R73). -/
theorem encode_loopBack (d : Data) :
    encode (.rdf (ordinalField (loopBackArg d)) (compareField (loopBackArg d))) = (3#3 ++ loopBackArg d : BitVec 35) ∧
    encode (.rdp (ordinalField (loopBackArg d)) (compareField (loopBackArg d))) = (4#3 ++ loopBackArg d : BitVec 35) :=
  ⟨congrArg (3#3 ++ ·) (arg_eq_append _), congrArg (4#3 ++ ·) (arg_eq_append _)⟩

section Assembler
variable {image : Option Data} {st : Stmt}

theorem assemble_of_wellFormed_false (h : st.wellFormed = false) : assemble image st = none := by simp [assemble, h]

/-- One row of the assembler's table: the range of the operands and the word (R72). -/
theorem assemble_eq_ite {inRange : Prop} [Decidable inRange] {w : Cmd} (hrange : st.wellFormed = decide inRange)
    (hw : inRange → st.wellFormed = true → assemble image st = some w) :
    assemble image st = if inRange then some w else none := by
  split
  next h => exact hw h (by simp [hrange, h])
  next h => exact assemble_of_wellFormed_false (by simp [hrange, h])

end Assembler

/-- Settles O9: a statement with plain operands has its row, and `@` passes the low 32 bits of the known image. -/
theorem assemblerEncodesExactlyInRange : Obligations.AssemblerEncodesExactlyInRange := by
  intro image n o c
  have halves_range : (decide (o < 2 ^ 16) && decide (c < 2 ^ 16)) = decide (o < 2 ^ 16 ∧ c < 2 ^ 16) :=
    (Bool.decide_and ..).symm
  refine ⟨assemble_eq_ite rfl fun _ h => if_pos h, assemble_eq_ite rfl fun _ h => if_pos h, ?_, ?_,
    assemble_eq_ite rfl fun _ h => if_pos h, assemble_eq_ite rfl fun _ h => if_pos h,
    assemble_eq_ite rfl fun _ h => if_pos h, ?_, ?_⟩
  · refine assemble_eq_ite halves_range fun hoc h => (if_pos h).trans ?_
    exact congrArg (fun arg : Arg => some (3#3 ++ arg : BitVec 35)) (ofNat_append_ofNat hoc.2)
  · refine assemble_eq_ite halves_range fun hoc h => (if_pos h).trans ?_
    exact congrArg (fun arg : Arg => some (4#3 ++ arg : BitVec 35)) (ofNat_append_ofNat hoc.2)
  · exact congrArg (image.map ·) (funext fun d => (encode_loopBack d).1)
  · exact congrArg (image.map ·) (funext fun d => (encode_loopBack d).2)

theorem nextImage_ok {image : Option Data} {cmd : Cmd} {d : Data} (h : answersImage cmd = true) :
    nextImage image cmd ⟨.ok, d⟩ = some d := by simp [nextImage, h]

theorem nextImage_kept {image : Option Data} {cmd : Cmd} {r : Response}
    (h : answersImage cmd = false ∨ r.status ≠ .ok) : nextImage image cmd r = image := by
  rcases h with h | h <;> simp [nextImage, h]

/-- With the image of a configuration known, `@` assembles to the reader of that configuration (R67, R73). -/
theorem assemble_at_pack (o : PrescOrdinal) (c : CompareValue) :
    assemble (some (pack o c)) .rdfAt = some (encode (.rdf (o.zeroExtend 16) c)) ∧
    assemble (some (pack o c)) .rdpAt = some (encode (.rdp (o.zeroExtend 16) c)) := by
  simp [assemble, Stmt.wellFormed]

/-- Settles O23: the image looped back is `pack` of the state after the command. -/
theorem loopBackReadsLatestConfiguration : Obligations.LoopBackReadsLatestConfiguration := by
  intro image cmd s t rest r hs h hr
  refine ⟨fun hc hok => ?_, nextImage_kept⟩
  obtain ⟨st, d⟩ := r
  obtain rfl : st = .ok := hok
  obtain rfl := step_image hs hc h hr
  rw [nextImage_ok hc]
  exact assemble_at_pack t.presc t.cmp

/-! ### The nearest binary64 number -/

section Nearest
variable {x : Rat} {m : Nat}

/-- An integer within one half of `x` is nearest to `x`, and one as near as another only when `x` is a tie. -/
theorem nearest_integer (hm : |(m : Rat) - x| ≤ 1 / 2) (n : Nat) :
    |(m : Rat) - x| ≤ |(n : Rat) - x| ∧ (n ≠ m → |(m : Rat) - x| = |(n : Rat) - x| → |(m : Rat) - x| = 1 / 2) := by
  by_cases hn : n = m
  · subst hn; exact ⟨le_rfl, fun h => absurd rfl h⟩
  have apart : (1 : Rat) ≤ |(n : Rat) - m| := by
    exact_mod_cast Int.one_le_abs (sub_ne_zero.2 (by exact_mod_cast hn : (n : Int) ≠ m))
  have triangle : |(n : Rat) - m| ≤ |(n : Rat) - x| + |(m : Rat) - x| := by
    rw [abs_sub_comm (m : Rat)]; exact abs_sub_le _ _ _
  exact ⟨by linarith, fun _ h => by linarith⟩

/-- Below `2 ^ 52`, where the patterns lie closer than the integers, no number is as near to an `x` above. -/
theorem nearer_than_below {y : Rat} (hm : |(m : Rat) - x| ≤ 1 / 2) (hx : 2 ^ 52 ≤ x) (hy : y < 2 ^ 52) :
    |(m : Rat) - x| < |y - x| := by
  have h := (nearest_integer hm (2 ^ 52)).1
  rw [Nat.cast_pow, Nat.cast_ofNat, abs_of_nonpos (by linarith : (2 : Rat) ^ 52 - x ≤ 0)] at h
  rw [abs_of_neg (by linarith : y - x < 0)]
  linarith

end Nearest

/-- In any unit `2 ^ k`, a positive normal number is an integer or below `2 ^ 52` (R68). -/
theorem f64Value_integer_or_below (b : Data) (k : Int) :
    (∃ n : Nat, f64Value b * 2 ^ k = n) ∨ f64Value b * 2 ^ k < 2 ^ 52 := by
  have hm : 2 ^ 52 + f64FractionField b < 2 ^ 53 := by
    have : f64FractionField b < 2 ^ 52 := (b.extractLsb' 0 52).isLt
    omega
  unfold f64Value
  generalize 2 ^ 52 + f64FractionField b = m at hm
  rw [mul_assoc, ← zpow_add₀ (by norm_num)]
  generalize (f64ExponentField b : Int) - 1075 + k = j
  rcases le_or_gt 0 j with hj | hj
  · obtain ⟨i, rfl⟩ := Int.eq_ofNat_of_zero_le hj
    exact .inl ⟨m * 2 ^ i, by push_cast; rw [zpow_natCast]⟩
  · refine .inr ?_
    have half : (2 : Rat) ^ j ≤ 2 ^ (-1 : Int) := zpow_le_zpow_right₀ (by norm_num) (by omega)
    calc (m : Rat) * 2 ^ j ≤ m * 2 ^ (-1 : Int) := mul_le_mul_of_nonneg_left half (by positivity)
      _ < 2 ^ 53 * 2 ^ (-1 : Int) := mul_lt_mul_of_pos_right (by exact_mod_cast hm) (by positivity)
      _ = 2 ^ 52 := by norm_num

/-- `f64` rounds to a nearest positive normal number, on a tie to an even fraction (R130). -/
theorem f64_nearest {N D : Nat} (hN : 0 < N) (hD : 0 < D) (h1 : -1022 ≤ f64Exponent N D) (h2 : f64Exponent N D ≤ 1022)
    {b : Data} (hb : f64PositiveNormal b) :
    |f64Value (f64 N D) - N / D| ≤ |f64Value b - N / D| ∧
    (b ≠ f64 N D → |f64Value (f64 N D) - N / D| = |f64Value b - N / D| → f64FractionField (f64 N D) % 2 = 0) := by
  obtain ⟨m, -, -, -, hm, htie, hv, hnormal, hfrac, -⟩ := f64_spec hN hD h1 h2
  obtain ⟨hx, -⟩ := f64_quotient_range hN hD
  generalize f64 N D = d at *
  generalize (N : Rat) / D = q at *
  generalize f64Exponent N D = e at *
  have unit_pos : (0 : Rat) < 2 ^ (52 - e) := by positivity
  have scaled (a : Rat) : |a * 2 ^ (52 - e) - q * 2 ^ (52 - e)| = |a - q| * 2 ^ (52 - e) := by
    rw [← sub_mul, abs_mul, abs_of_pos unit_pos]
  have hvm : f64Value d * 2 ^ (52 - e) = m := by
    rw [hv, mul_assoc, ← zpow_add₀ (by norm_num), show e - 52 + (52 - e) = 0 by ring, zpow_zero, mul_one]
  rw [← mul_le_mul_iff_of_pos_right unit_pos, ← mul_left_inj' unit_pos.ne', ← scaled, ← scaled, hvm, hfrac]
  rcases f64Value_integer_or_below b (52 - e) with ⟨n, hn⟩ | hlow
  · rw [hn]
    refine ⟨(nearest_integer hm n).1, fun hbd heq => htie ((nearest_integer hm n).2 (fun hnm => hbd ?_) heq)⟩
    exact f64Value_injective hb hnormal (mul_right_cancel₀ unit_pos.ne' (by rw [hn, hvm, hnm]))
  · have strict := nearer_than_below hm hx hlow
    exact ⟨strict.le, fun _ heq => absurd heq strict.ne⟩

/-- One half of the waveform is 1..2^26 ticks. -/
theorem ticks_range (p : Prescaler) (c : Half) : 1 ≤ ticks p c ∧ ticks p c ≤ 2 ^ 26 := by
  have hc := c.isLt
  cases p <;> simp only [ticks, Prescaler.div] <;> omega

theorem FREQ_eq (p : Prescaler) (c : Half) : FREQ p c = (Config.baseClock : Nat) / (ticks p c : Nat) := by
  simp [FREQ, Config.baseClock, ticks]

/-- The exponent of every frequency is in -4..22 (R140). -/
theorem f64Exponent_freq (p : Prescaler) (c : Half) :
    -4 ≤ f64Exponent Config.baseClock (ticks p c) ∧ f64Exponent Config.baseClock (ticks p c) ≤ 22 := by
  obtain ⟨lo, hi⟩ := ticks_range p c
  have lo' : (1 : Rat) ≤ ticks p c := by exact_mod_cast lo
  have hi' : (ticks p c : Rat) ≤ 67108864 := by exact_mod_cast hi
  have clock : (Config.baseClock : Rat) = 8000000 := by norm_num [Config.baseClock]
  apply f64Exponent_bounds (by decide) lo
  · rw [clock]; norm_num; linarith
  · rw [clock]; norm_num; linarith

/-- Settles O45: RDF answers `f64` of FREQ, whose exponent is in the normal range. -/
theorem frequencyIsNearestBinary64 : Obligations.FrequencyIsNearestBinary64 := by
  intro o c p s hp
  obtain ⟨h1, h2⟩ := f64Exponent_freq p c
  have hN : 0 < Config.baseClock := by decide
  have hD : 0 < ticks p c := (ticks_range p c).1
  obtain ⟨-, -, -, -, -, -, -, hnormal, -, -⟩ := f64_spec hN hD (by omega) (by omega)
  refine ⟨_, answers_rdf c s hp, hnormal, fun b hb => ?_⟩
  rw [FREQ_eq]
  exact f64_nearest hN hD (by omega) (by omega) hb

/-! ### Fixed words, the status codes and the reserved opcodes -/

/-- Settles O4, by decoding the eight words. -/
theorem sampleWordsDecode : Obligations.SampleWordsDecode := by
  unfold Obligations.SampleWordsDecode; decide

/-- Settles O10: the table is read off the two definitions. -/
theorem statusCodeTable : Obligations.StatusCodeTable := ⟨rfl, rfl, rfl, rfl, rfl, rfl, rfl, rfl⟩

/-- Settles O14: the step serves the word, and a reserved opcode raises IllegalOp whatever its operand. -/
theorem reservedOpcodesAnswerIllegalOp : Obligations.ReservedOpcodesAnswerIllegalOp := by
  refine ⟨fun s arg rest op hop hs => ?_, rfl, decode_reserved (.inl rfl) 0#32⟩
  exact (step_cons s _ rest hs).trans (accept_reserved hop arg _)

end Sys2Proof.Machine
end

section
/-! PROOFS. The statements of spec/40_prescaler_selector.md: the divisor table (R90), the two ladders (R92, R94), and the audits
of the ladders against the 16 bits of the compare value (R96, R97). -/

namespace Sys2Proof.Machine

/-! ### The frequency ladder against its compare value (R96) -/

/-- The rounded compare value of divisor times frequency `n` fits 16 bits from `n = 123` on. -/
theorem rounded_compare_fits_iff {n : Nat} (hn : 0 < n) : roundHaz 8000000 n - 1 ≤ 65535 ↔ 123 ≤ n := by
  have fits_iff_below : roundHaz 8000000 n - 1 ≤ 65535 ↔ 2 * 8000000 + n < 65537 * (2 * n) := by
    rw [← Nat.div_lt_iff_lt_mul (by omega)]
    unfold roundHaz; omega
  omega

/-- On every live rung the chosen divisor makes the compare value fit. -/
theorem le_selF_div_mul {f : Nat} (h : 1 ≤ f) : 123 ≤ (selF f).div * f := by
  rcases selF_cases f h with ⟨hp, _⟩ | ⟨hp, _, _⟩ | ⟨hp, _, _⟩ | ⟨hp, _⟩ <;> rw [hp] <;>
    simp only [Prescaler.div] <;> omega

/-- The next smaller divisor, and with it every smaller one, does not. -/
theorem smaller_div_mul_lt {f : Nat} (h : 1 ≤ f) {q : Prescaler} (hq : q.div < (selF f).div) : q.div * f < 123 := by
  rcases selF_cases f h with ⟨hp, _⟩ | ⟨hp, _, _⟩ | ⟨hp, _, _⟩ | ⟨hp, _⟩ <;> rw [hp] at hq <;>
    cases q <;> simp only [Prescaler.div] at hq ⊢ <;> omega

/-- Settles O31: the compare value fits exactly when the divisor times `f` is at least 123, and the ladder's rungs stand where
that product reaches 123. -/
theorem frequencyLadderPicksLeastFit : Obligations.FrequencyLadderPicksLeastFit := by
  intro f h1 _
  have fits_iff (q : Prescaler) : roundHaz 8000000 (q.div * f) - 1 ≤ 65535 ↔ 123 ≤ q.div * f :=
    rounded_compare_fits_iff (Nat.mul_pos q.div_pos h1)
  exact ⟨(fits_iff _).mpr (le_selF_div_mul h1),
    fun q hq => not_le.mp (mt (fits_iff q).mp (not_le.mpr (smaller_div_mul_lt h1 hq)))⟩

/-! ### The period ladder against its compare value (R97) -/

/-- The ladder passes over a divisor `d` from 8 on only above its threshold, which is `8192 * d` (R94). -/
theorem threshold_lt_of_div_lt_selP {p : Nat} (h : 1 ≤ p) {q : Prescaler} (h8 : 8 ≤ q.div) (hq : q.div < (selP p).div) :
    8192 * q.div < p := by
  rcases selP_cases p h with ⟨hp, _⟩ | ⟨hp, _, _⟩ | ⟨hp, _, _⟩ | ⟨hp, _⟩ <;> rw [hp] at hq <;>
    cases q <;> simp only [Prescaler.div] at h8 hq ⊢ <;> omega

theorem selP_ne_by1 {p : Nat} (h : 1 ≤ p) : selP p ≠ .by1 := by
  rcases selP_cases p h with ⟨hp, _⟩ | ⟨hp, _, _⟩ | ⟨hp, _, _⟩ | ⟨hp, _⟩ <;> rw [hp] <;> decide

/-- The truncated compare value fits 16 bits while the period has less than 65537 ticks. -/
theorem truncated_compare_fits_iff {d : Nat} (hd : 0 < d) (p : Nat) : p * 8 / d - 1 ≤ 65535 ↔ p * 8 < 65537 * d := by
  rw [← Nat.div_lt_iff_lt_mul hd]; omega

/-- Settles O32: a divisor `d` fits up to `8192 * d + (d / 8 - 1)`, because of the truncation, and is passed over above
`8192 * d`; between the two lie no period for 8, 7 for 64 and 31 for 256. -/
theorem periodLadderFitsButIsNotLeast : Obligations.PeriodLadderFitsButIsNotLeast := by
  intro p h1 h2
  obtain ⟨-, hle⟩ := quotient_selP_range h1 h2
  refine ⟨by omega, selP_ne_by1 h1, by omega, fun q h8 hq => ?_⟩
  have above := threshold_lt_of_div_lt_selP h1 h8 hq
  rw [truncated_compare_fits_iff q.div_pos]
  cases q with
  | by1 => exact absurd h8 (by decide)
  | by8 | by64 | by256 | by1024 =>
    simp only [Prescaler.div, reduceCtorEq, true_and, false_and, or_false, false_or, iff_false] at above ⊢
    omega

/-! ### The tables -/

/-- Settles O29: the five rows are read off the definition, and an ordinal above 5 has no prescaler. -/
theorem divisorTable : Obligations.DivisorTable :=
  ⟨rfl, rfl, rfl, rfl, rfl, rfl, fun _ h => congrArg (Option.map Prescaler.div) (ofOrdinal_out (.inr h))⟩

/-- Settles O30, rung by rung: the conditions above the rung fail and its own holds. -/
theorem laddersFollowTheirTables : Obligations.LaddersFollowTheirTables := by
  refine fun x => ⟨fun h => ?_, fun h h' => ?_, fun h h' => ?_, fun h => ?_, fun h => ?_,
    fun h => ?_, fun h h' => ?_, fun h h' => ?_, fun h h' => ?_, fun h => ?_⟩
  · rw [selF_eq, if_pos h]
  · rw [selF_eq, if_neg (by omega), if_pos h]
  · rw [selF_eq, if_neg (by omega), if_neg (by omega), if_pos h]
  · rw [selF_eq, if_neg (by omega), if_neg (by omega), if_neg (by omega), if_pos h.ge]
  · rw [selF_eq, if_neg (by omega), if_neg (by omega), if_neg (by omega), if_neg (by omega)]
  · rw [selP_eq, if_pos h.le]
  · rw [selP_eq, if_neg (by omega), if_pos h']
  · rw [selP_eq, if_neg (by omega), if_neg (by omega), if_pos h']
  · rw [selP_eq, if_neg (by omega), if_neg (by omega), if_neg (by omega), if_pos h']
  · rw [selP_eq, if_neg (by omega), if_neg (by omega), if_neg (by omega), if_neg (by omega)]

end Sys2Proof.Machine
end

section
/-! PROOFS. The statements of spec/41_solver.md: SOLVF and SOLVP (R111, R116), their results by rung (R114, R118), the rounding
(R113), the accuracy of the configurations they leave (R115, R119), and what the two have in common (R120, R121). -/

namespace Sys2Proof.Machine

/-! ### What a solver command leaves -/

/-- The number an image of a prescaler's ordinal and a compare value that fits is (R66). -/
theorem pack_narrowCompare (p : Prescaler) {c : Nat} (hc : c ≤ 65535) :
    pack p.ordinal (narrowCompare c) = BitVec.ofNat 64 (65536 * p.ordinal.toNat + c) := by
  obtain ⟨-, h5⟩ := p.ordinal_range
  apply BitVec.eq_of_toNat_eq
  rw [pack_toNat, narrowCompare_toNat hc, BitVec.toNat_ofNat]
  omega

theorem configures_of_writeCfg {i : Instr} {s : State} {p : Prescaler} {c : Nat} (hc : c ≤ 65535)
    (h : exec i s = .next (s.writeCfg p.ordinal (narrowCompare c)).respondConfig) : Configures i s p.ordinal.toNat c := by
  rw [Configures, h, ← pack_narrowCompare p hc, BitVec.ofNat_toNat, BitVec.setWidth_eq]
  rfl

/-- The rounded quotient is the stored compare value and 1 (R112). -/
theorem cmpF_add_one {f : Nat} (h1 : 1 ≤ f) (h2 : f ≤ 8000000) :
    cmpF (selF f) f + 1 = roundHaz (8000000 / (selF f).div) f := Nat.sub_add_cancel (roundHaz_selF_range h1 h2).1

/-- The truncated quotient is the stored compare value and 1 (R117). -/
theorem cmpP_add_one {p : Nat} (h1 : 1 ≤ p) (h2 : p ≤ 8000000) : cmpP (selP p) p + 1 = p * 8 / (selP p).div :=
  Nat.sub_add_cancel (quotient_selP_range h1 h2).1

theorem cmpP_le {p : Nat} (h1 : 1 ≤ p) (h2 : p ≤ 8000000) : cmpP (selP p) p ≤ 65535 := by
  have := cmpP_add_one h1 h2
  have := quotient_selP_range h1 h2
  omega

section Solve
variable {x : Arg} (h1 : 1 ≤ x.toNat) (h2 : x.toNat ≤ 8000000)
include h1 h2

theorem configures_solvf (s : State) :
    Configures (.solvf x) s (selF x.toNat).ordinal.toNat (cmpF (selF x.toNat) x.toNat) := by
  refine configures_of_writeCfg ?_ (exec_solvf_in ⟨h1, h2⟩ s)
  have := cmpF_add_one h1 h2
  have := roundHaz_selF_range h1 h2
  omega

theorem configures_solvp (s : State) :
    Configures (.solvp x) s (selP x.toNat).ordinal.toNat (cmpP (selP x.toNat) x.toNat) :=
  configures_of_writeCfg (cmpP_le h1 h2) (exec_solvp_in ⟨h1, h2⟩ s)

/-- The configuration SOLVF leaves (R111). -/
theorem solvf_leaves {s t : State} (h : exec (.solvf x) s = .next t) :
    t.presc = (selF x.toNat).ordinal ∧ t.cmp.toNat + 1 = roundHaz (8000000 / (selF x.toNat).div) x.toNat := by
  obtain rfl := Host.Outcome.next.inj (h.symm.trans (exec_solvf_in ⟨h1, h2⟩ s))
  exact ⟨rfl, narrowCompare_pred_add_one (roundHaz_selF_range h1 h2)⟩

/-- The configuration SOLVP leaves (R116). -/
theorem solvp_leaves {s t : State} (h : exec (.solvp x) s = .next t) :
    t.presc = (selP x.toNat).ordinal ∧ t.cmp.toNat + 1 = x.toNat * 8 / (selP x.toNat).div := by
  obtain rfl := Host.Outcome.next.inj (h.symm.trans (exec_solvp_in ⟨h1, h2⟩ s))
  exact ⟨rfl, narrowCompare_pred_add_one (quotient_selP_range h1 h2)⟩

end Solve

/-- A solver's effect writes values its operand alone gives (R121). -/
theorem solver_reads_no_state {i : Instr} (hi : ∃ x, i = .solvf x ∨ i = .solvp x) {s s' t t' : State}
    (h : exec i s = .next t) (h' : exec i s' = .next t') :
    t.rsp = t'.rsp ∧ (∀ d, t.rsp = some ⟨.ok, d⟩ → t.presc = t'.presc ∧ t.cmp = t'.cmp) := by
  obtain ⟨-, reads_only, -⟩ := accessSummary
  obtain ⟨x, hx⟩ := hi
  obtain ⟨hrsp, hcfg⟩ := reads_only i s s' t t' h h' (by rintro ⟨n, rfl⟩; simp at hx) (by rintro ⟨v, rfl⟩; simp at hx)
  exact ⟨hrsp, fun d hd => (hcfg d hd).1 ⟨x, hx⟩⟩

/-- Settles O41, for each of the two solvers. -/
theorem solversReadNoState : Obligations.SolversReadNoState := fun x _ _ _ _ =>
  ⟨solver_reads_no_state ⟨x, .inl rfl⟩, solver_reads_no_state ⟨x, .inr rfl⟩⟩

/-! ### The rules of the two commands -/

/-- The row of R111's table that SOLVF's operand is on. -/
theorem selF_row {f : Nat} (h1 : 1 ≤ f) :
    ((selF f).ordinal.toNat = 1 ∧ 8000000 / (selF f).div = 8000000 ∧ 123 ≤ f) ∨
    ((selF f).ordinal.toNat = 2 ∧ 8000000 / (selF f).div = 1000000 ∧ 16 ≤ f ∧ f < 123) ∨
    ((selF f).ordinal.toNat = 3 ∧ 8000000 / (selF f).div = 125000 ∧ 2 ≤ f ∧ f < 16) ∨
    ((selF f).ordinal.toNat = 4 ∧ 8000000 / (selF f).div = 31250 ∧ f = 1) := by
  rcases selF_cases f h1 with ⟨hp, h⟩ | ⟨hp, h⟩ | ⟨hp, h⟩ | ⟨hp, h⟩ <;> rw [hp]
  · exact .inl ⟨rfl, rfl, h⟩
  · exact .inr (.inl ⟨rfl, rfl, h⟩)
  · exact .inr (.inr (.inl ⟨rfl, rfl, h⟩))
  · exact .inr (.inr (.inr ⟨rfl, rfl, h⟩))

/-- The row of R116's table that SOLVP's operand is on. -/
theorem selP_row {p : Nat} (h1 : 1 ≤ p) :
    ((selP p).ordinal.toNat = 2 ∧ (selP p).div = 8 ∧ p ≤ 65536) ∨
    ((selP p).ordinal.toNat = 3 ∧ (selP p).div = 64 ∧ 65536 < p ∧ p ≤ 524288) ∨
    ((selP p).ordinal.toNat = 4 ∧ (selP p).div = 256 ∧ 524288 < p ∧ p ≤ 2097152) ∨
    ((selP p).ordinal.toNat = 5 ∧ (selP p).div = 1024 ∧ 2097152 < p) := by
  rcases selP_cases p h1 with ⟨hp, h⟩ | ⟨hp, h⟩ | ⟨hp, h⟩ | ⟨hp, h⟩ <;> rw [hp]
  · exact .inl ⟨rfl, rfl, h⟩
  · exact .inr (.inl ⟨rfl, rfl, h⟩)
  · exact .inr (.inr (.inl ⟨rfl, rfl, h⟩))
  · exact .inr (.inr (.inr ⟨rfl, rfl, h⟩))

/-- Bounds of a rounded quotient from bounds of the quotient: at least `lo - 1/2` and below `hi + 1/2`. -/
theorem roundHaz_bounds {a b lo hi : Nat} (hb : 0 < b) (hlo : lo * (2 * b) ≤ 2 * a + b) (hhi : 2 * a + b < (hi + 1) * (2 * b)) :
    lo ≤ roundHaz a b ∧ roundHaz a b ≤ hi :=
  ⟨(Nat.le_div_iff_mul_le (by omega)).mpr hlo, Nat.lt_succ_iff.mp ((Nat.div_lt_iff_lt_mul (by omega)).mpr hhi)⟩

theorem roundHaz_eq {a b n : Nat} (hlo : n * (2 * b) ≤ 2 * a + b) (hhi : 2 * a + b < (n + 1) * (2 * b)) :
    roundHaz a b = n := Nat.div_eq_of_lt_le hlo hhi

/-- On every rung the range of SOLVF's rounded quotient (R114). -/
theorem roundHaz_selF_rung {f : Nat} (h1 : 1 ≤ f) :
    (123 ≤ f → roundHaz (8000000 / (selF f).div) f ≤ 65041) ∧
    (16 ≤ f → f ≤ 122 → 8197 ≤ roundHaz (8000000 / (selF f).div) f ∧ roundHaz (8000000 / (selF f).div) f ≤ 62500) ∧
    (2 ≤ f → f ≤ 15 → 8333 ≤ roundHaz (8000000 / (selF f).div) f ∧ roundHaz (8000000 / (selF f).div) f ≤ 62500) ∧
    (f = 1 → roundHaz (8000000 / (selF f).div) f = 31250) := by
  rcases selF_row h1 with ⟨-, hA, h⟩ | ⟨-, hA, h, h'⟩ | ⟨-, hA, h, h'⟩ | ⟨-, hA, rfl⟩ <;> rw [hA]
  · exact ⟨fun _ => (roundHaz_bounds (lo := 0) h1 (by omega) (by omega)).2, by omega, by omega, by omega⟩
  · exact ⟨by omega, fun _ _ => roundHaz_bounds h1 (by omega) (by omega), by omega, by omega⟩
  · exact ⟨by omega, by omega, fun _ _ => roundHaz_bounds h1 (by omega) (by omega), by omega⟩
  · exact ⟨by omega, by omega, by omega, fun _ => rfl⟩

theorem cmpF_le {f : Nat} (h1 : 1 ≤ f) (h2 : f ≤ 8000000) : cmpF (selF f) f ≤ 65040 := by
  have := cmpF_add_one h1 h2
  have := roundHaz_selF_rung h1
  omega

/-- Settles O33: the row of the operand's rung, and the corner cases by evaluation but for the range of frequencies whose
quotient is below 1.5. -/
theorem solvfFollowsItsRule : Obligations.SolvfFollowsItsRule := by
  refine ⟨decode_solvf, fun f s h => exec_solvf_out (by omega) s, ?_, ?_, fun s => ?_, rfl⟩
  · intro f s h1 h2
    exact ⟨_, _, _, selF_row h1, cmpF_add_one h1 h2, cmpF_le h1 h2, configures_solvf h1 h2 s⟩
  · intro f s h1 h2
    have rung : selF f.toNat = .by1 := by rw [selF_eq, if_pos (by omega)]
    have quotient : roundHaz 8000000 f.toNat = 1 := roundHaz_eq (by omega) (by omega)
    have configured := configures_solvf (by omega) h2 s
    have compare : cmpF .by1 f.toNat = 0 := congrArg (· - 1) quotient
    rwa [rung, compare] at configured
  · have at_corner (f : Arg) (h : 1 ≤ f.toNat ∧ f.toNat ≤ 8000000) := configures_solvf h.1 h.2 s
    exact ⟨at_corner 5333333#32 (by decide), at_corner 123#32 (by decide), at_corner 122#32 (by decide),
      at_corner 1#32 (by decide), at_corner 500#32 (by decide)⟩

/-- Settles O34: the row of the operand's rung, and the corner cases by evaluation. -/
theorem solvpFollowsItsRule : Obligations.SolvpFollowsItsRule := by
  refine ⟨decode_solvp, fun p s h => exec_solvp_out (by omega) s, ?_, fun s => ?_, rfl⟩
  · intro p s h1 h2
    exact ⟨_, _, _, selP_row h1, cmpP_add_one h1 h2, cmpP_le h1 h2, configures_solvp h1 h2 s⟩
  · have at_corner (p : Arg) (h : 1 ≤ p.toNat ∧ p.toNat ≤ 8000000) := configures_solvp h.1 h.2 s
    exact ⟨at_corner 1#32 (by decide), at_corner 65536#32 (by decide), at_corner 65537#32 (by decide),
      at_corner 524288#32 (by decide), at_corner 524289#32 (by decide), at_corner 2097152#32 (by decide),
      at_corner 2097153#32 (by decide), at_corner 8000000#32 (by decide), at_corner 2000#32 (by decide)⟩

/-- Settles O35: the ordinal and the range of the quotient on each rung. -/
theorem solverResultsByRung : Obligations.SolverResultsByRung := by
  constructor
  · intro f s h1 h2
    have row := selF_row h1
    have range := roundHaz_selF_rung h1
    have count := cmpF_add_one h1 h2
    exact ⟨_, _, configures_solvf h1 h2 s, by omega, by omega, by omega, by omega⟩
  · intro p s h1 h2
    have count := cmpP_add_one h1 h2
    refine ⟨_, _, configures_solvp h1 h2 s, ?_⟩
    rcases selP_row h1 with ⟨ho, hD, h⟩ | ⟨ho, hD, h, h'⟩ | ⟨ho, hD, h, h'⟩ | ⟨ho, hD, h⟩ <;>
      rw [hD] at count <;> omega

/-! ### The accuracy of the configuration left -/

/-- The divisor of SOLVF's rung divides the base clock (R112). -/
theorem selF_div_clock {f : Nat} (h1 : 1 ≤ f) : 8000000 / (selF f).div * (selF f).div = 8000000 := by
  rcases selF_cases f h1 with ⟨hp, _⟩ | ⟨hp, _⟩ | ⟨hp, _⟩ | ⟨hp, _⟩ <;> rw [hp] <;> rfl

/-- The frequency is the prescaled clock over the count (R132). -/
theorem FREQ_of_count {p : Prescaler} {c : Half} {A n : Nat} (hA : A * p.div = 8000000) (hn : c.toNat + 1 = n) :
    FREQ p c = A / n := by
  have hD : (p.div : Rat) ≠ 0 := by exact_mod_cast p.div_pos.ne'
  have clock : (8000000 : Rat) = A * p.div := by exact_mod_cast hA.symm
  have count : (c.toNat : Rat) + 1 = n := by exact_mod_cast hn
  rw [FREQ, clock, count, mul_div_mul_right _ _ hD]

/-- The rounded quotient is within one half of the quotient: the remainder is what rounding leaves. -/
theorem roundHaz_error (a : Nat) {b : Nat} (hb : 0 < b) : |(a : Rat) - roundHaz a b * b| * 2 ≤ b := by
  have lower : roundHaz a b * (2 * b) ≤ 2 * a + b := Nat.div_mul_le_self _ _
  have upper : 2 * a + b < (roundHaz a b + 1) * (2 * b) := (Nat.div_lt_iff_lt_mul (by omega)).mp (Nat.lt_succ_self _)
  have lower' : (roundHaz a b : Rat) * (2 * b) ≤ 2 * a + b := by exact_mod_cast lower
  have upper' : (2 : Rat) * a + b < (roundHaz a b + 1) * (2 * b) := by exact_mod_cast upper
  rw [← le_div_iff₀ (by norm_num), abs_le]
  constructor <;> linarith

/-- The rounded quotient times `b` gives `a` back exactly when nothing is rounded. -/
theorem eq_mul_roundHaz_iff {a b : Nat} (hb : 0 < b) : a = b * roundHaz a b ↔ b ∣ a := by
  constructor
  · exact fun h => ⟨_, h⟩
  · rintro ⟨k, rfl⟩
    rw [roundHaz_eq (n := k) (by linarith) (by linarith)]

/-- Settles O38: the count is the rounded quotient, so that the bound is the rounding error, and the frequency is `f` when there
is none. -/
theorem solvfAccuracy : Obligations.SolvfAccuracy := by
  intro f s t h1 h2 h
  obtain ⟨hpresc, hcount⟩ := solvf_leaves h1 h2 h
  have hpos := (roundHaz_selF_range h1 h2).1
  have hfreq := FREQ_of_count (selF_div_clock h1) hcount
  refine ⟨_, hpresc, rfl, ?_⟩
  generalize 8000000 / (selF f.toNat).div = A at hcount hpos hfreq ⊢
  have herror := roundHaz_error A h1
  have hcount' : (t.cmp.toNat : Rat) + 1 = roundHaz A f.toNat := by exact_mod_cast hcount
  rw [hfreq, hcount']
  have hn : (0 : Rat) < roundHaz A f.toNat := by exact_mod_cast hpos
  constructor
  · calc |(A : Rat) / roundHaz A f.toNat - f.toNat| * (2 * roundHaz A f.toNat)
      _ = |((A : Rat) / roundHaz A f.toNat - f.toNat) * roundHaz A f.toNat| * 2 := by rw [abs_mul, abs_of_pos hn]; ring
      _ = |(A : Rat) - roundHaz A f.toNat * f.toNat| * 2 := by
        rw [sub_mul, div_mul_cancel₀ _ hn.ne', mul_comm (f.toNat : Rat)]
      _ ≤ f.toNat := herror
  · rw [div_eq_iff hn.ne']
    exact_mod_cast eq_mul_roundHaz_iff h1

/-! ### SOLVP truncates, and RDP reads it back -/

/-- A quotient with a denominator of `2 ^ j` is answered exactly while it has no more than 53 significant bits. -/
theorem f64_dyadic_exact {N D m j : Nat} (hN : 0 < N) (hD : 0 < D) (h : (N : Rat) / D = m / 2 ^ j)
    (lo : -1022 ≤ f64Exponent N D) (hi : f64Exponent N D + j ≤ 52) : f64Value (f64 N D) = N / D := by
  refine (f64_exact_iff hN hD lo (by omega)).mpr ⟨m * 2 ^ (52 - (f64Exponent N D + j)).toNat, ?_⟩
  rw [h, Nat.cast_mul, Nat.cast_pow, ← zpow_natCast ((2 : Nat) : Rat), Int.toNat_of_nonneg (by omega), ← sub_sub,
    Nat.cast_ofNat, zpow_sub₀ (by norm_num) _ (j : Int), zpow_natCast]
  ring

/-- The exponent of every period is in -3..23 (R140). -/
theorem f64Exponent_period (p : Prescaler) (c : Half) :
    -3 ≤ f64Exponent (ticks p c) 8 ∧ f64Exponent (ticks p c) 8 ≤ 23 := by
  obtain ⟨lo, hi⟩ := ticks_range p c
  have lo' : (1 : Rat) ≤ ticks p c := by exact_mod_cast lo
  have hi' : (ticks p c : Rat) ≤ 67108864 := by exact_mod_cast hi
  apply f64Exponent_bounds lo (by decide)
  · norm_num; linarith
  · norm_num; linarith

/-- RDP's answer is the period itself (R136). -/
theorem f64Value_period (p : Prescaler) (c : Half) : f64Value (f64 (ticks p c) Config.ticksPerUs) = PER p c := by
  obtain ⟨lo, hi⟩ := f64Exponent_period p c
  have eighths : (ticks p c : Rat) / (8 : Nat) = ticks p c / 2 ^ 3 := by norm_num
  calc f64Value (f64 (ticks p c) 8)
    _ = ticks p c / (8 : Nat) := f64_dyadic_exact (ticks_range p c).1 (by decide) eighths (by omega) (by omega)
    _ = PER p c := by simp [PER, ticks]

/-- The ordinal of a prescaler, as a reader's operand, has that prescaler. -/
theorem ofOrdinal_zeroExtend (p : Prescaler) : Prescaler.ofOrdinal (p.ordinal.zeroExtend 16).toNat = some p := by
  cases p <;> rfl

/-- The period in eighths of a microsecond is the count times the divisor (R135). -/
theorem PER_of_count {p : Prescaler} {c : Half} {n : Nat} (hn : c.toNat + 1 = n) : PER p c = (n * p.div : Nat) / 8 := by
  rw [PER, ← hn]; push_cast; rfl

/-- Settles O39: the count is the truncated quotient, which leaves out the remainder; RDP answers every period exactly. -/
theorem solvpTruncatesAndReadsBack : Obligations.SolvpTruncatesAndReadsBack := by
  intro p s t h1 h2 h
  obtain ⟨hpresc, hcount⟩ := solvp_leaves h1 h2 h
  have division : (p.toNat : Rat) * 8 = (p.toNat * 8 / (selP p.toNat).div * (selP p.toNat).div : Nat) +
      (p.toNat * 8 % (selP p.toNat).div : Nat) := by exact_mod_cast (Nat.div_add_mod' _ _).symm
  have remainder : ((p.toNat * 8 % (selP p.toNat).div : Nat) : Rat) < (selP p.toNat).div := by
    exact_mod_cast Nat.mod_lt _ (Prescaler.div_pos _)
  have period := PER_of_count (p := selP p.toNat) hcount
  have exact_period : PER (selP p.toNat) t.cmp = p.toNat - ((p.toNat * 8 % (selP p.toNat).div : Nat) : Rat) / 8 := by
    linarith
  refine ⟨_, hpresc, rfl, exact_period, ?_, by linarith, _, answers_rdp t.cmp t ?_, f64Value_period _ _⟩
  · rw [exact_period]
    exact sub_le_self _ (by positivity)
  · rw [hpresc]
    exact ofOrdinal_zeroExtend _

/-! ### The two solvers on one waveform -/

/-- What the frequency and the period of one waveform have to do with the two ladders (R120). -/
theorem same_waveform_cases {f p : Nat} (h : f * p = 1000000) :
    (123 ≤ f ∧ selF f = .by1 ∧ selP p = .by8) ∨ (f < 123 ∧ selF f = .by8 ∧ selP p = .by8) ∨
    (f < 123 ∧ selF f = .by64 ∧ selP p = .by64 ∧ 8 ∣ p) ∨ (f = 1 ∧ selF f = .by256 ∧ selP p = .by256) := by
  have product_pos : 0 < f * p := by omega
  obtain ⟨hf, hp⟩ := CanonicallyOrderedAdd.mul_pos.mp product_pos
  have short (h16 : 16 ≤ f) : selP p = .by8 := by
    have : 16 * p ≤ 1000000 := h ▸ Nat.mul_le_mul_right p h16
    rw [selP_eq, if_neg (by omega), if_pos (by omega)]
  rcases selF_cases f hf with ⟨hF, h123⟩ | ⟨hF, h16, hlt⟩ | ⟨hF, h2, hlt⟩ | ⟨hF, rfl⟩
  · exact .inl ⟨h123, hF, short (by omega)⟩
  · exact .inr (.inl ⟨hlt, hF, short h16⟩)
  · have lower : 1000000 ≤ 15 * p := h ▸ Nat.mul_le_mul_right p (by omega)
    have upper : 2 * p ≤ 1000000 := h ▸ Nat.mul_le_mul_right p h2
    have divides : 8 ∣ p := by interval_cases f <;> omega
    refine .inr (.inr (.inl ⟨by omega, hF, ?_, divides⟩))
    rw [selP_eq, if_neg (by omega), if_neg (by omega), if_pos (by omega)]
  · obtain rfl : p = 1000000 := by omega
    exact .inr (.inr (.inr ⟨rfl, hF, rfl⟩))

section SameWaveform
variable {f p : Nat} (h : f * p = 1000000)
include h

theorem selF_eq_selP_iff : selF f = selP p ↔ f < 123 := by
  rcases same_waveform_cases h with ⟨hf, hF, hP⟩ | ⟨hf, hF, hP⟩ | ⟨hf, hF, hP, -⟩ | ⟨hf, hF, hP⟩ <;>
    rw [hF, hP] <;> simp [hf]

/-- SOLVF of such a frequency does not round. -/
theorem dvd_clock_of_same_waveform : f ∣ 8000000 / (selF f).div := by
  rcases same_waveform_cases h with ⟨-, hF, -⟩ | ⟨-, hF, -⟩ | ⟨-, hF, -, k, rfl⟩ | ⟨rfl, -, -⟩
  · rw [hF]; exact ⟨p * 8, by rw [← mul_assoc, h]; rfl⟩
  · rw [hF]; exact ⟨p, h.symm⟩
  · rw [hF]; exact ⟨k, by rw [Nat.mul_left_comm] at h; simp only [Prescaler.div]; omega⟩
  · exact one_dvd _

/-- SOLVP of its period does not truncate. -/
theorem div_dvd_of_same_waveform : (selP p).div ∣ p * 8 := by
  rcases same_waveform_cases h with ⟨-, -, hP⟩ | ⟨-, -, hP⟩ | ⟨-, -, hP, h8⟩ | ⟨rfl, -, hP⟩ <;> rw [hP] <;>
    simp only [Prescaler.div] <;> omega

end SameWaveform

theorem FREQ_mul_PER (p : Prescaler) (c : Half) : FREQ p c * PER p c = 1000000 := by
  have hD : (p.div : Rat) ≠ 0 := by exact_mod_cast p.div_pos.ne'
  have hn : (c.toNat : Rat) + 1 ≠ 0 := by positivity
  rw [FREQ, PER]; field_simp; norm_num

/-- On one prescaler two compare values have different periods. -/
theorem PER_injective (p : Prescaler) {c c' : Half} (h : PER p c = PER p c') : c = c' := by
  have hD : (p.div : Rat) ≠ 0 := by exact_mod_cast p.div_pos.ne'
  rw [PER, PER, div_left_inj' (by norm_num), mul_left_inj' hD, add_left_inj, Nat.cast_inj] at h
  exact BitVec.eq_of_toNat_eq h

/-- On one prescaler two compare values have different frequencies. -/
theorem FREQ_injective (p : Prescaler) {c c' : Half} (h : FREQ p c = FREQ p c') : c = c' := by
  have hne : FREQ p c' ≠ 0 := left_ne_zero_of_mul (b := PER p c') (by rw [FREQ_mul_PER]; norm_num)
  refine PER_injective p (mul_left_cancel₀ hne ?_)
  rw [FREQ_mul_PER, ← h, FREQ_mul_PER]

/-- Settles O40: neither solver rounds, so both configurations have the frequency `f`; on one rung they are then equal, and the
rungs are the same exactly below 123. -/
theorem sameWaveformTwoConfigurations : Obligations.SameWaveformTwoConfigurations := by
  intro f p s t u hfp ht hu
  have product_pos : 0 < f.toNat * p.toNat := by omega
  obtain ⟨hf, hp⟩ := CanonicallyOrderedAdd.mul_pos.mp product_pos
  have hf' : f.toNat ≤ 1000000 := hfp ▸ Nat.le_mul_of_pos_right _ hp
  have hp' : p.toNat ≤ 1000000 := hfp ▸ Nat.le_mul_of_pos_left _ hf
  obtain ⟨_, htp, rfl, -, hexact⟩ := solvfAccuracy f s t hf (by omega) ht
  obtain ⟨_, hup, rfl, hper, -⟩ := solvpTruncatesAndReadsBack p s u hp (by omega) hu
  have htf := hexact.mpr (dvd_clock_of_same_waveform hfp)
  have hfp' : (f.toNat : Rat) * p.toNat = 1000000 := by exact_mod_cast hfp
  have huf : FREQ (selP p.toNat) u.cmp = f.toNat := by
    have hp0 : (p.toNat : Rat) ≠ 0 := by exact_mod_cast (by omega : p.toNat ≠ 0)
    have product := FREQ_mul_PER (selP p.toNat) u.cmp
    rw [hper, Nat.mod_eq_zero_of_dvd (div_dvd_of_same_waveform hfp), Nat.cast_zero, zero_div, sub_zero, ← hfp'] at product
    exact mul_right_cancel₀ hp0 product
  refine ⟨⟨_, _, htp, hup, htf, huf⟩, ?_⟩
  rw [← selF_eq_selP_iff hfp]
  constructor
  · rintro ⟨hpresc, -⟩
    exact Prescaler.ordinal_injective (by rw [← htp, ← hup, hpresc])
  · intro hrung
    rw [hrung] at htp htf
    exact ⟨htp.trans hup.symm, FREQ_injective _ (htf.trans huf.symm)⟩

/-! ### Rounding the binary64 quotient -/

/-- A number less than `1 / (2 * b)` away from `a / b`, and equal to it where it is a tie, rounds as `a / b` does (R113): other
half-integers are no nearer than that. -/
theorem floor_half_more_of_near {a b : Nat} {q : Rat} (hb : 0 < b) (near : |q - (a : Rat) / b| < 1 / (2 * b))
    (tie : 2 * b ∣ 2 * a + b → q = (a : Rat) / b) : ⌊q + 1 / 2⌋ = (roundHaz a b : Int) := by
  have hb' : (0 : Rat) < b := by exact_mod_cast hb
  have division : 2 * (a : Rat) + b = 2 * b * roundHaz a b + ((2 * a + b) % (2 * b) : Nat) := by
    exact_mod_cast (Nat.div_add_mod _ _).symm
  have fraction : (a : Rat) / b + 1 / 2 = roundHaz a b + ((2 * a + b) % (2 * b) : Nat) / (2 * b) := by
    field_simp; linarith
  by_cases hr : (2 * a + b) % (2 * b) = 0
  · rw [tie (Nat.dvd_of_mod_eq_zero hr), fraction, hr]
    simp
  · have above : (1 : Rat) ≤ ((2 * a + b) % (2 * b) : Nat) := by exact_mod_cast Nat.one_le_iff_ne_zero.mpr hr
    have below : (((2 * a + b) % (2 * b) : Nat) : Rat) + 1 ≤ 2 * b := by
      exact_mod_cast Nat.mod_lt (2 * a + b) (by omega : 2 * b > 0)
    have above' := div_le_div_of_nonneg_right above (by positivity : (0 : Rat) ≤ 2 * b)
    have below' := div_le_div_of_nonneg_right below (by positivity : (0 : Rat) ≤ 2 * b)
    rw [add_div, div_self (by positivity)] at below'
    rw [abs_lt] at near
    rw [Int.floor_eq_iff]
    push_cast
    constructor <;> linarith

/-- No operand of SOLVF is above the clock of its rung. -/
theorem le_selF_clock {f : Nat} (h1 : 1 ≤ f) (h2 : f ≤ 8000000) : f ≤ 8000000 / (selF f).div := by
  rcases selF_row h1 with ⟨-, hA, _⟩ | ⟨-, hA, _⟩ | ⟨-, hA, _⟩ | ⟨-, hA, _⟩ <;> omega

/-- The exponent of SOLVF's quotient is in 0..22 (R113). -/
theorem f64Exponent_selF {f : Nat} (h1 : 1 ≤ f) (h2 : f ≤ 8000000) :
    0 ≤ f64Exponent (8000000 / (selF f).div) f ∧ f64Exponent (8000000 / (selF f).div) f ≤ 22 := by
  have lo := le_selF_clock h1 h2
  have hi : 8000000 / (selF f).div < 8388608 * f := by
    have : 8000000 / (selF f).div ≤ 8000000 := Nat.div_le_self _ _
    omega
  apply f64Exponent_bounds (h1.trans lo) h1
  · rw [zpow_zero, one_mul]; exact_mod_cast lo
  · norm_num; exact_mod_cast hi

/-- The binary64 quotient of the solver rounds to the integer quotient's rounding (R113). -/
theorem floor_f64Value_selF {f : Nat} (h1 : 1 ≤ f) (h2 : f ≤ 8000000) :
    ⌊f64Value (f64 (8000000 / (selF f).div) f) + 1 / 2⌋ = (roundHaz (8000000 / (selF f).div) f : Int) := by
  obtain ⟨lo, hi⟩ := f64Exponent_selF h1 h2
  have hA : 0 < 8000000 / (selF f).div := h1.trans (le_selF_clock h1 h2)
  generalize 8000000 / (selF f).div = A at *
  have hf : (0 : Rat) < f := by exact_mod_cast h1
  have hf' : (f : Rat) ≤ 8000000 := by exact_mod_cast h2
  apply floor_half_more_of_near h1
  · calc |f64Value (f64 A f) - A / f|
      _ ≤ 2 ^ (f64Exponent A f - 53) := f64_error hA h1 (by omega) (by omega)
      _ ≤ 2 ^ (-31 : Int) := zpow_le_zpow_right₀ (by norm_num) (by omega)
      _ < 1 / (2 * 8000000) := by norm_num
      _ ≤ 1 / (2 * f) := one_div_le_one_div_of_le (by positivity) (by linarith)
  · rintro ⟨k, hk⟩
    have half_integer : (A : Rat) / f = (2 * k - 1 : Nat) / 2 ^ 1 := by
      have hk1 : 1 ≤ k := Nat.pos_of_ne_zero (by rintro rfl; omega)
      have hk' : (2 : Rat) * A + f = 2 * f * k := by exact_mod_cast hk
      rw [Nat.cast_sub (by omega)]
      push_cast
      field_simp
      linarith
    exact f64_dyadic_exact hA h1 half_integer (by omega) (by push_cast; omega)

/-- A divisor of `2 ^ a * 5 ^ 6` with an odd cofactor has all the factors 2. -/
theorem eq_of_odd_mul_eq {f k a : Nat} (h : 2 ^ a * 5 ^ 6 = (2 * k + 1) * f) : ∃ j ≤ 6, f = 2 ^ a * 5 ^ j := by
  have odd_part : 2 * k + 1 ∣ 5 ^ 6 :=
    Nat.Coprime.dvd_of_dvd_mul_left ((Nat.coprime_two_right.mpr ⟨k, rfl⟩).pow_right a) ⟨f, h⟩
  obtain ⟨i, hi, hk⟩ := (Nat.dvd_prime_pow Nat.prime_five).mp odd_part
  refine ⟨6 - i, by omega, Nat.eq_of_mul_eq_mul_left (by positivity : 0 < 5 ^ i) ?_⟩
  rw [← hk, ← h, hk, ← pow_mul_pow_sub 5 hi]
  ring

/-- Ties are on the first rung, where twice the clock has the factor `2 ^ 10` (R113): on the others its power of 2 is above `f`, or
the cofactor is even. -/
theorem tie_frequency {f k : Nat} (h1 : 1 ≤ f) (h : 2 * (8000000 / (selF f).div) = (2 * k + 1) * f) :
    ∃ j ≤ 6, f = 2 ^ 10 * 5 ^ j := by
  have five_pow_pos (j : Nat) : 0 < 5 ^ j := by positivity
  rcases selF_row h1 with ⟨-, hA, -⟩ | ⟨-, hA, -, hf⟩ | ⟨-, hA, -, hf⟩ | ⟨-, hA, rfl⟩ <;> rw [hA] at h
  · exact eq_of_odd_mul_eq (a := 10) h
  · obtain ⟨j, -, rfl⟩ := eq_of_odd_mul_eq (a := 7) h
    have := five_pow_pos j
    omega
  · obtain ⟨j, -, rfl⟩ := eq_of_odd_mul_eq (a := 4) h
    have := five_pow_pos j
    omega
  · omega

/-- Settles O37: the error of the binary64 quotient is below the distance of a half-integer that is not the quotient; a tie is
`2 ^ 10` times a power of 5. -/
theorem solverRoundingEqualsFloatQuotient : Obligations.SolverRoundingEqualsFloatQuotient := by
  intro f h1 h2
  refine ⟨by rw [cmpF_add_one h1 h2]; exact floor_f64Value_selF h1 h2, ?_, ?_⟩
  · rintro ⟨k, hk⟩
    obtain ⟨j, hj, rfl⟩ := tie_frequency h1 hk
    interval_cases j <;> omega
  · rintro (rfl | rfl | rfl | rfl | rfl | rfl)
    · exact ⟨7812, rfl⟩
    · exact ⟨1562, rfl⟩
    · exact ⟨312, rfl⟩
    · exact ⟨62, rfl⟩
    · exact ⟨12, rfl⟩
    · exact ⟨2, rfl⟩

end Sys2Proof.Machine
end

section
/-! PROOFS. The statements of spec/42_reader.md: the rounding procedure of `f64` (R130), RDF and RDP (R133, R137), how exact their
answers are (R131, R134, R136, R138), their ranges (R140), and that they have nothing to do with `CFG` (R141). -/

namespace Sys2Proof.Machine

/-! ### The rounding procedure -/

/-- As long as `e` is at most 52 the denominator is `D` itself (R130). -/
theorem f64Den_of_le {N D : Nat} (h : f64Exponent N D ≤ 52) : f64Den N D = D := by
  rw [f64Den, Int.toNat_of_nonpos (by omega), pow_zero, mul_one]

/-- As long as `e` is at most 52 the numerator is `N * 2 ^ (52 - e)` (R130). -/
theorem f64Num_of_le {N D : Nat} (h : f64Exponent N D ≤ 52) : (f64Num N D : Rat) = N * 2 ^ (52 - f64Exponent N D) := by
  rw [f64Num, Nat.cast_mul, Nat.cast_pow, Nat.cast_ofNat, ← zpow_natCast, Int.toNat_of_nonneg (by omega)]

/-- Settles O44: the `e` of the rule is `f64Exponent`, and the integer rounded with it is in `2 ^ 52 .. 2 ^ 53`. -/
theorem f64RoundingProcedure : Obligations.F64RoundingProcedure := by
  intro N D e hN hD lo hi _ h52
  obtain rfl := f64Exponent_unique hN hD lo hi
  obtain ⟨r1, r2⟩ := f64_rounded_range hN hD
  have answer : f64 N D = if roundNearestEven (f64Num N D) (f64Den N D) = 2 ^ 53
      then f64Pattern (f64Exponent N D + 1) (2 ^ 52)
      else f64Pattern (f64Exponent N D) (roundNearestEven (f64Num N D) (f64Den N D)) := rfl
  rw [f64Den_of_le h52] at r1 r2 answer
  refine ⟨f64Num N D, _, _, roundNearestEven (f64Num N D) D, f64Num_of_le h52, rfl, rfl, rfl, fun carry => ?_,
    fun no_carry => ⟨r1, by omega, ?_⟩⟩
  · rw [answer, if_pos carry]; rfl
  · rw [answer, if_neg no_carry]; rfl

/-! ### The value of an answer -/

/-- The number a pattern stands for, from its two fields (R68). -/
theorem f64Value_of_fields {b : Data} {E F : Nat} (hE : f64ExponentField b = E) (hF : f64FractionField b = F) :
    f64Value b = (2 ^ 52 + F : Nat) * 2 ^ ((E : Int) - 1075) := by rw [f64Value, hE, hF]

/-- A number stands between the power of 2 of its exponent field and the next one (R68). -/
theorem f64Value_between (b : Data) :
    (2 : Rat) ^ ((f64ExponentField b : Int) - 1023) ≤ f64Value b ∧ f64Value b < 2 ^ ((f64ExponentField b : Int) - 1022) := by
  have fraction : f64FractionField b < 2 ^ 52 := (b.extractLsb' 0 52).isLt
  have lo : ((2 ^ 52 : Nat) : Rat) ≤ (2 ^ 52 + f64FractionField b : Nat) := by exact_mod_cast Nat.le_add_right _ _
  have hi : ((2 ^ 52 + f64FractionField b : Nat) : Rat) < (2 ^ 53 : Nat) := by exact_mod_cast (by omega)
  have scaled (n : Nat) (E : Int) : (2 : Rat) ^ (E - 1075 + n) = (2 ^ n : Nat) * 2 ^ (E - 1075) := by
    rw [zpow_add₀ (by norm_num), zpow_natCast, mul_comm, Nat.cast_pow, Nat.cast_ofNat]
  have unit_pos : (0 : Rat) < 2 ^ ((f64ExponentField b : Int) - 1075) := by positivity
  rw [f64Value, show (f64ExponentField b : Int) - 1023 = f64ExponentField b - 1075 + (52 : Nat) by push_cast; ring,
    show (f64ExponentField b : Int) - 1022 = f64ExponentField b - 1075 + (53 : Nat) by push_cast; ring, scaled, scaled]
  exact ⟨mul_le_mul_of_nonneg_right lo unit_pos.le, mul_lt_mul_of_pos_right hi unit_pos⟩

/-- Bounds of the exponent field from bounds of the number (R140). -/
theorem f64ExponentField_bounds {b : Data} {j k : Int} (lo : (2 : Rat) ^ j ≤ f64Value b) (hi : f64Value b < 2 ^ (k + 1)) :
    j + 1023 ≤ f64ExponentField b ∧ (f64ExponentField b : Int) ≤ k + 1023 := by
  obtain ⟨b1, b2⟩ := f64Value_between b
  have below := (zpow_lt_zpow_iff_right₀ (by norm_num)).mp (lo.trans_lt b2)
  have above := (zpow_lt_zpow_iff_right₀ (by norm_num)).mp (b1.trans_lt hi)
  omega

section Rounding
variable {N D : Nat} (hN : 0 < N) (hD : 0 < D) (h1 : -1022 ≤ f64Exponent N D) (h2 : f64Exponent N D ≤ 1022)
include hN hD h1 h2

theorem f64_normal : f64PositiveNormal (f64 N D) := by
  obtain ⟨-, -, -, -, -, -, -, hnormal, -, -⟩ := f64_spec hN hD h1 h2
  exact hnormal

/-- Rounding does not pass a binary64 number at or above the quotient: the nearest is no farther (R130). -/
theorem f64_le_of_le {b : Data} (hb : f64PositiveNormal b) (h : (N : Rat) / D ≤ f64Value b) :
    f64Value (f64 N D) ≤ f64Value b := by
  obtain ⟨nearest, -⟩ := f64_nearest hN hD h1 h2 hb
  rw [abs_of_nonneg (by linarith : 0 ≤ f64Value b - N / D)] at nearest
  linarith [le_abs_self (f64Value (f64 N D) - N / D)]

/-- Nor one at or below it. -/
theorem le_f64_of_le {b : Data} (hb : f64PositiveNormal b) (h : f64Value b ≤ (N : Rat) / D) :
    f64Value b ≤ f64Value (f64 N D) := by
  obtain ⟨nearest, -⟩ := f64_nearest hN hD h1 h2 hb
  rw [abs_of_nonpos (by linarith : f64Value b - N / D ≤ 0)] at nearest
  linarith [neg_le_abs (f64Value (f64 N D) - N / D)]

/-- Half a unit in the last place is `2 ^ -53` of `2 ^ e`, which the quotient is at least (R134). -/
theorem f64_relative_error : |f64Value (f64 N D) - N / D| ≤ N / D * (2 : Rat) ^ (-53 : Int) := by
  obtain ⟨lower, -⟩ := f64Exponent_spec hN hD
  rw [← le_div_iff₀ (by exact_mod_cast hD)] at lower
  calc |f64Value (f64 N D) - N / D|
    _ ≤ 2 ^ (f64Exponent N D - 53) := f64_error hN hD h1 h2
    _ = 2 ^ f64Exponent N D * 2 ^ (-53 : Int) := zpow_add₀ (by norm_num) _ _
    _ ≤ N / D * 2 ^ (-53 : Int) := mul_le_mul_of_nonneg_right lower (by positivity)

end Rounding

/-! ### Dividing by a power of two after the rounding -/

/-- The answer as a pattern, the carry taken in: dividing the quotient by `2 ^ k` takes `k` off its exponent (R130, R131). -/
theorem f64_div_pow_pattern {N D : Nat} (hN : 0 < N) (hD : 0 < D) :
    ∃ (e : Int) (m : Nat), f64Exponent N D ≤ e ∧ e ≤ f64Exponent N D + 1 ∧ 2 ^ 52 ≤ m ∧ m < 2 ^ 53 ∧
      ∀ k : Nat, f64 N (D * 2 ^ k) = f64Pattern (e - k) m := by
  obtain ⟨r1, r2⟩ := f64_rounded_range hN hD
  by_cases carry : roundNearestEven (f64Num N D) (f64Den N D) = 2 ^ 53
  · refine ⟨f64Exponent N D + 1, 2 ^ 52, by omega, by omega, by norm_num, by norm_num, fun k => ?_⟩
    obtain ⟨he, hm⟩ := f64_div_pow hN hD k
    rw [f64, he, hm, if_pos carry, sub_add_eq_add_sub]
  · refine ⟨f64Exponent N D, _, by omega, by omega, r1, by omega, fun k => ?_⟩
    obtain ⟨he, hm⟩ := f64_div_pow hN hD k
    rw [f64, he, hm, if_neg carry]

/-- Rounding a quotient, dividing what comes out by `2 ^ k` and rounding again is rounding once: the second rounding has nothing
to round (R131). -/
theorem f64_of_rounded_div_pow {N D : Nat} (hN : 0 < N) (hD : 0 < D) (h1 : -1022 ≤ f64Exponent N D)
    (h2 : f64Exponent N D ≤ 1022) (k : Nat) :
    f64 (f64Value (f64 N D)).num.toNat ((f64Value (f64 N D)).den * 2 ^ k) = f64 N (D * 2 ^ k) := by
  obtain ⟨e, m, he, he', hm, hm', pattern⟩ := f64_div_pow_pattern hN hD
  have value : f64Value (f64 N D) = m * 2 ^ (e - 52) := by
    have first := pattern 0
    rw [pow_zero, mul_one, Nat.cast_zero, sub_zero] at first
    rw [first, f64Pattern_value (by omega) (by omega) hm hm']
  have hm0 : (0 : Rat) < m := by exact_mod_cast (by omega : 0 < m)
  have num_pos : 0 < (f64Value (f64 N D)).num := Rat.num_pos.mpr (by rw [value]; positivity)
  generalize f64Value (f64 N D) = v at value num_pos ⊢
  have num_cast : ((v.num.toNat : Nat) : Rat) = v.num := by exact_mod_cast Int.toNat_of_nonneg num_pos.le
  rw [pattern k]
  refine f64_exact (by omega) (Nat.mul_pos v.den_pos (by positivity)) hm hm' ?_
  rw [num_cast, Nat.cast_mul, ← div_div, Rat.num_div_den, value, sub_right_comm, zpow_sub₀ (by norm_num) _ (k : Int),
    zpow_natCast, Nat.cast_pow, Nat.cast_ofNat, mul_div_assoc]

/-- Settles O48: the divisor is a power of two. -/
theorem twoDivisionsRoundOnce : Obligations.TwoDivisionsRoundOnce := by
  rintro o c p s hp _ rfl
  have one_division : ticks .by1 c = c.toNat + 1 := Nat.mul_one _
  obtain ⟨h1, h2⟩ := f64Exponent_freq .by1 c
  rw [one_division] at h1 h2
  obtain ⟨k, -, hk⟩ := p.div_pow
  have once := f64_of_rounded_div_pow (N := 8000000) (by decide) (Nat.succ_pos c.toNat) (h1.trans' (by decide))
    (h2.trans (by decide)) k
  rw [hk, once, ← hk]
  exact answers_rdf c s hp

/-! ### When a frequency is exact -/

/-- A number up to `2 ^ a`, which has no more than `a` factors 2, divides `2 ^ a * 5 ^ 6` exactly when its odd part divides
`5 ^ 6`. -/
theorem odd_part_dvd_iff {n a : Nat} (hn : 0 < n) (ha : n ≤ 2 ^ a) :
    n ∣ 2 ^ a * 15625 ↔ ∃ j k : Nat, n = 2 ^ j * k ∧ k % 2 = 1 ∧ k ∣ 15625 := by
  constructor
  · intro h
    obtain ⟨j, k, hk, rfl⟩ := Nat.exists_eq_two_pow_mul_odd hn.ne'
    have coprime : Nat.Coprime k (2 ^ a) := (Nat.coprime_two_right.mpr hk).pow_right a
    exact ⟨j, k, rfl, Nat.odd_iff.mp hk, coprime.dvd_of_dvd_mul_left ((Nat.dvd_mul_left k _).trans h)⟩
  · rintro ⟨j, k, rfl, -, h⟩
    have hj : 2 ^ j ≤ 2 ^ a := (Nat.le_of_dvd hn (Nat.dvd_mul_right _ k)).trans ha
    exact mul_dvd_mul (pow_dvd_pow 2 ((Nat.pow_le_pow_iff_right (by decide)).mp hj)) h

/-- An answer is exact when the division of the rounding procedure leaves no remainder (R130, R136). -/
theorem f64_exact_iff_dvd {N D : Nat} (hN : 0 < N) (hD : 0 < D) (h1 : -1022 ≤ f64Exponent N D)
    (h2 : f64Exponent N D ≤ 52) : f64Value (f64 N D) = N / D ↔ D ∣ f64Num N D := by
  have hD' : (D : Rat) ≠ 0 := by exact_mod_cast hD.ne'
  rw [f64_exact_iff hN hD h1 (by omega), ← f64_quotient, f64Den_of_le h2]
  refine exists_congr fun k => ?_
  rw [div_eq_iff hD', mul_comm (k : Rat)]
  exact_mod_cast Iff.rfl

/-- RDF divides `2 ^ 9 * 5 ^ 6`, scaled by a power of two; the divisor is a power of two and takes from that (R134). -/
theorem f64Value_freq_iff (p : Prescaler) (c : Half) :
    f64Value (f64 Config.baseClock (ticks p c)) = FREQ p c ↔
      ∃ j k : Nat, c.toNat + 1 = 2 ^ j * k ∧ k % 2 = 1 ∧ k ∣ 15625 := by
  obtain ⟨h1, h2⟩ := f64Exponent_freq p c
  obtain ⟨i, hi, hdiv⟩ := p.div_pow
  have count : c.toNat + 1 ≤ 2 ^ 16 := c.isLt
  rw [FREQ_eq, f64_exact_iff_dvd (by decide) (ticks_range p c).1 (by omega) (by omega), f64Num]
  obtain ⟨a, ha, ha'⟩ : ∃ a : Nat, 9 + (52 - f64Exponent Config.baseClock (ticks p c)).toNat = a + i ∧ 16 ≤ a :=
    ⟨_ - i, (Nat.sub_add_cancel (by omega)).symm, by omega⟩
  have numerator : Config.baseClock * 2 ^ (52 - f64Exponent Config.baseClock (ticks p c)).toNat = 2 ^ a * 15625 * 2 ^ i := by
    rw [mul_right_comm, ← pow_add, ← ha, pow_add, Config.baseClock]; ring
  rw [numerator, ticks, hdiv, Nat.mul_dvd_mul_iff_right (by positivity)]
  exact odd_part_dvd_iff (Nat.succ_pos _) (count.trans (Nat.pow_le_pow_right (by decide) ha'))

/-- Settles O46: RDF answers `f64` of FREQ, whose exponent is in the normal range. -/
theorem frequencyExactIffOddPartDivides : Obligations.FrequencyExactIffOddPartDivides := by
  intro o c p s hp
  obtain ⟨h1, h2⟩ := f64Exponent_freq p c
  refine ⟨_, answers_rdf c s hp, f64Value_freq_iff p c, ?_⟩
  rw [FREQ_eq]
  exact f64_relative_error (by decide) (ticks_range p c).1 (by omega) (by omega)

/-- Settles O47: the period has at most 27 significant bits. -/
theorem periodIsExact : Obligations.PeriodIsExact := by
  intro o c p s hp
  have period := f64Value_period p c
  exact ⟨_, answers_rdp c s hp, period, by rw [period, FREQ_mul_PER]⟩

/-! ### The ranges -/

/-- The values of the least and the greatest frequency, and of those in between that R133 names. -/
theorem frequency_values :
    f64Value 0x3FBE848000000000#64 = 8000000 / 67108864 ∧ f64Value 0x415E848000000000#64 = 8000000 ∧
    f64Value 0x40BE848000000000#64 = 78125 / 10 ∧ f64Value 0x407F400000000000#64 = 500 := by
  refine ⟨?_, ?_, ?_, ?_⟩
  · rw [f64Value_of_fields (E := 1019) (F := 0xE848000000000) rfl rfl]; norm_num
  · rw [f64Value_of_fields (E := 1045) (F := 0xE848000000000) rfl rfl]; norm_num
  · rw [f64Value_of_fields (E := 1035) (F := 0xE848000000000) rfl rfl]; norm_num
  · rw [f64Value_of_fields (E := 1031) (F := 0xF400000000000) rfl rfl]; norm_num

/-- RDF's answers are in the range of FREQ, whose ends are binary64 numbers (R140). -/
theorem f64Value_freq_range (p : Prescaler) (c : Half) :
    8000000 / 67108864 ≤ f64Value (f64 Config.baseClock (ticks p c)) ∧
    f64Value (f64 Config.baseClock (ticks p c)) ≤ 8000000 := by
  obtain ⟨h1, h2⟩ := f64Exponent_freq p c
  obtain ⟨lo, hi⟩ := ticks_range p c
  obtain ⟨least, greatest, -, -⟩ := frequency_values
  have hN : 0 < Config.baseClock := by decide
  have clock : ((Config.baseClock : Nat) : Rat) = 8000000 := by norm_num [Config.baseClock]
  have lo' : (1 : Rat) ≤ ticks p c := by exact_mod_cast lo
  have hi' : (ticks p c : Rat) ≤ 67108864 := by exact_mod_cast hi
  constructor
  · rw [← least]
    refine le_f64_of_le hN lo (by omega) (by omega) ⟨by decide, by decide, by decide⟩ ?_
    rw [least, clock]
    exact div_le_div_of_nonneg_left (by norm_num) (by linarith) hi'
  · rw [← greatest]
    refine f64_le_of_le hN lo (by omega) (by omega) ⟨by decide, by decide, by decide⟩ ?_
    rw [greatest, clock]
    exact div_le_self (by norm_num) lo'

/-- The range of PER (R135). -/
theorem PER_range (p : Prescaler) (c : Half) : 1 / 8 ≤ PER p c ∧ PER p c ≤ 8388608 := by
  obtain ⟨lo, hi⟩ := ticks_range p c
  have lo' : (1 : Rat) ≤ ticks p c := by exact_mod_cast lo
  have hi' : (ticks p c : Rat) ≤ 67108864 := by exact_mod_cast hi
  have eighths : PER p c = ticks p c / 8 := by simp [PER, ticks]
  rw [eighths]
  constructor <;> linarith

/-- Settles O49: the exponent fields are those of the ranges' ends. -/
theorem readerResultsInRange : Obligations.ReaderResultsInRange := by
  intro o c s h1 h5
  obtain ⟨p, hp⟩ := ofOrdinal_isSome h1 h5
  have ticks_pos : 0 < ticks p c := (ticks_range p c).1
  constructor
  · obtain ⟨e1, e2⟩ := f64Exponent_freq p c
    obtain ⟨lo, hi⟩ := f64Value_freq_range p c
    obtain ⟨b1, b2⟩ := f64ExponentField_bounds (j := -4) (k := 22) (lo.trans' (by norm_num)) (hi.trans_lt (by norm_num))
    exact ⟨_, answers_rdf c s hp, f64_normal (by decide) ticks_pos (by omega) (by omega), by omega, by omega, lo, hi⟩
  · obtain ⟨e1, e2⟩ := f64Exponent_period p c
    have range := PER_range p c
    rw [← f64Value_period] at range
    obtain ⟨lo, hi⟩ := range
    obtain ⟨b1, b2⟩ := f64ExponentField_bounds (j := -3) (k := 23) (lo.trans' (by norm_num)) (hi.trans_lt (by norm_num))
    have normal : f64PositiveNormal (f64 (ticks p c) 8) := f64_normal ticks_pos (by decide) (by omega) (by omega)
    exact ⟨_, answers_rdp c s hp, normal, by omega, by omega, lo, hi⟩

/-! ### The rules of the two commands -/

/-- `DIV` is the divisor of the ordinal's prescaler (R90). -/
theorem DIV_eq_some_iff {o D : Nat} : DIV o = some D ↔ ∃ p, Prescaler.ofOrdinal o = some p ∧ p.div = D :=
  Option.map_eq_some_iff

theorem Answers.unique {i : Instr} {s : State} {d d' : Data} (h : Answers i s d) (h' : Answers i s d') : d = d' := by
  simpa using h.symm.trans h'

/-- RDF depends on the product of the count and the divisor alone (R133). -/
theorem answers_rdf_of_ticks_eq {o o' c c' : Half} {p p' : Prescaler} {s : State} {d : Data}
    (hp : Prescaler.ofOrdinal o.toNat = some p) (hp' : Prescaler.ofOrdinal o'.toNat = some p')
    (hticks : ticks p c = ticks p' c') (h : Answers (.rdf o c) s d) : Answers (.rdf o' c') s d := by
  rw [h.unique (answers_rdf c s hp), hticks]
  exact answers_rdf c' s hp'

/-- Settles O42: an ordinal with a divisor answers `f64` of FREQ, and the corner cases are evaluated. -/
theorem rdfFollowsItsRule : Obligations.RdfFollowsItsRule := by
  obtain ⟨least, greatest, at_5_0, example_value⟩ := frequency_values
  refine ⟨decode_rdf_append, fun o c s h => (readers_fail c s (by omega)).1, ?_, fun s => ?_, ?_, ?_,
    least.trans (by norm_num), greatest, at_5_0, example_value, rfl⟩
  · intro o c s h1 h5
    obtain ⟨p, hp⟩ := ofOrdinal_isSome h1 h5
    exact ⟨p.div, DIV_eq_some_iff.mpr ⟨p, hp, rfl⟩, answers_rdf c s hp⟩
  · have corner {o c : Half} (p : Prescaler) {d : Data} (hp : Prescaler.ofOrdinal o.toNat = some p)
        (hd : f64 Config.baseClock (ticks p c) = d) : Answers (.rdf o c) s d := hd ▸ answers_rdf c s hp
    exact ⟨corner .by1 rfl (by decide), corner .by1024 rfl (by decide), corner .by1024 rfl (by decide),
      corner .by1 rfl (by decide), corner .by1 rfl (by decide), corner .by8 rfl (by decide)⟩
  · intro o o' c c' s D D' d hD hD' hprod h
    obtain ⟨p, hp, rfl⟩ := DIV_eq_some_iff.mp hD
    obtain ⟨p', hp', rfl⟩ := DIV_eq_some_iff.mp hD'
    exact answers_rdf_of_ticks_eq hp hp' hprod h
  · intro o c s h1 h5
    obtain ⟨p, hp⟩ := ofOrdinal_isSome h1 h5
    obtain ⟨lo, hi⟩ := f64Value_freq_range p c
    exact ⟨_, answers_rdf c s hp, least.trans_le lo, hi.trans_eq greatest.symm⟩

/-- The values of the least and the greatest period, and of those in between that R137 names. -/
theorem period_values :
    f64Value 0x3FC0000000000000#64 = 125 / 1000 ∧ f64Value 0x4160000000000000#64 = 8388608 ∧
    f64Value 0x4060000000000000#64 = 128 ∧ f64Value 0x409F400000000000#64 = 2000 := by
  refine ⟨?_, ?_, ?_, ?_⟩
  · rw [f64Value_of_fields (E := 1020) (F := 0) rfl rfl]; norm_num
  · rw [f64Value_of_fields (E := 1046) (F := 0) rfl rfl]; norm_num
  · rw [f64Value_of_fields (E := 1030) (F := 0) rfl rfl]; norm_num
  · rw [f64Value_of_fields (E := 1033) (F := 0xF400000000000) rfl rfl]; norm_num

/-- With the divisor 8 the count is the period (R137). -/
theorem PER_by8 (c : Half) : PER .by8 c = c.toNat + 1 := by
  rw [PER]; exact mul_div_cancel_right₀ _ (by norm_num [Prescaler.div])

/-- Settles O43: an ordinal with a divisor answers `f64` of PER, which is exact, and the corner cases are evaluated. -/
theorem rdpFollowsItsRule : Obligations.RdpFollowsItsRule := by
  obtain ⟨least, greatest, at_5_0, example_value⟩ := period_values
  refine ⟨decode_rdp_append, fun o c s h => (readers_fail c s (by omega)).2, ?_, fun s => ?_, ?_, ?_,
    least, greatest, at_5_0, example_value, rfl⟩
  · intro o c s h1 h5
    obtain ⟨p, hp⟩ := ofOrdinal_isSome h1 h5
    exact ⟨p.div, DIV_eq_some_iff.mpr ⟨p, hp, rfl⟩, answers_rdp c s hp⟩
  · have corner {o c : Half} (p : Prescaler) {d : Data} (hp : Prescaler.ofOrdinal o.toNat = some p)
        (hd : f64 (ticks p c) Config.ticksPerUs = d) : Answers (.rdp o c) s d := hd ▸ answers_rdp c s hp
    exact ⟨corner .by1 rfl (by decide), corner .by1024 rfl (by decide), corner .by1024 rfl (by decide),
      corner .by1 rfl (by decide)⟩
  · exact fun c s => ⟨_, answers_rdp c s (p := .by8) rfl, (f64Value_period .by8 c).trans (PER_by8 c)⟩
  · intro o c s h1 h5
    obtain ⟨p, hp⟩ := ofOrdinal_isSome h1 h5
    obtain ⟨lo, hi⟩ := PER_range p c
    refine ⟨_, answers_rdp c s hp, ?_⟩
    rw [f64Value_period, least, greatest]
    exact ⟨lo.trans' (by norm_num), hi⟩

/-! ### The configuration is not read -/

/-- A reader's effect neither uses the configuration nor writes it (R25, R141). -/
theorem reader_ignores_configuration {i : Instr} (hi : ∃ o c, i = .rdf o c ∨ i = .rdp o c) {s s' t t' : State}
    (h : exec i s = .next t) (h' : exec i s' = .next t') : t.rsp = t'.rsp ∧ t.presc = s.presc ∧ t.cmp = s.cmp := by
  obtain ⟨frame, reads_only, -⟩ := accessSummary
  obtain ⟨-, registers_kept, -⟩ := frame i s t h
  obtain ⟨same_response, -⟩ := reads_only i s s' t t' h h' (by rintro ⟨n, rfl⟩; simp at hi) (by rintro ⟨v, rfl⟩; simp at hi)
  exact ⟨same_response, registers_kept hi⟩

/-- Settles O50, for each of the two readers; the ordinal straight after reset is 0. -/
theorem readersIgnoreConfiguration : Obligations.ReadersIgnoreConfiguration :=
  ⟨fun o c _ _ _ _ =>
    ⟨reader_ignores_configuration ⟨o, c, .inl rfl⟩, reader_ignores_configuration ⟨o, c, .inr rfl⟩⟩,
    readers_fail _ _ (by decide)⟩

end Sys2Proof.Machine
end

section
/-! PROOFS. The statements of spec/43_override.md: SETPS and SETCV (R151, R154), and the pairs they reach (R156). -/

namespace Sys2Proof.Machine

/-! ### What the two commands do -/

/-- A command that writes both fields and answers their image configures their numbers (R66). -/
theorem configures_of_respondConfig {i : Instr} {s : State} {o : PrescOrdinal} {c : CompareValue}
    (h : exec i s = .next (s.writeCfg o c).respondConfig) : Configures i s o.toNat c.toNat := by
  simp only [Configures, h, ← pack_toNat, BitVec.ofNat_toNat, BitVec.setWidth_eq]
  rfl

section Override
variable {n v : Arg}

/-- The low three bits of an operand that is at most 5 are the operand. -/
theorem toNat_low_ordinal (h : n.toNat ≤ 5) : (n.extractLsb' 0 3).toNat = n.toNat := by
  simp [BitVec.extractLsb'_toNat]; omega

/-- The ordinal written is the operand's low three bits (R151). -/
theorem prescalerOperand_in (h1 : 1 ≤ n.toNat) (h5 : n.toNat ≤ 5) :
    ∃ p, prescalerOperand n = some p ∧ p.ordinal = n.extractLsb' 0 3 := by
  obtain ⟨p, hp⟩ := ofOrdinal_isSome h1 h5
  obtain ⟨-, -, hord⟩ := ofOrdinal_some hp
  exact ⟨p, hp, BitVec.eq_of_toNat_eq (hord.trans (toNat_low_ordinal h5).symm)⟩

theorem exec_setps_in (h1 : 1 ≤ n.toNat) (h5 : n.toNat ≤ 5) (s : State) :
    exec (.setps n) s = .next (s.writePresc (n.extractLsb' 0 3)).respondConfig := by
  obtain ⟨p, hp, hord⟩ := prescalerOperand_in h1 h5
  simp only [exec, execSetps, hp, hord]

theorem exec_setcv_in (h : v.toNat ≤ 65535) (s : State) :
    exec (.setcv v) s = .next (s.writeCmp (v.extractLsb' 0 16)).respondConfig := by
  simp only [exec, execSetcv, compareOperand_in h]

/-- SETPS tests its whole operand (R63, R151). -/
theorem setps_fails (h : n.toNat < 1 ∨ n.toNat > 5) (s : State) : FailsWith (.setps n) s .outOfRange := by
  have no_prescaler : prescalerOperand n = none := ofOrdinal_out h
  simp only [FailsWith, exec, execSetps, no_prescaler, State.raise]

/-- SETCV tests its whole operand (R63, R154). -/
theorem setcv_fails (h : v.toNat > 65535) (s : State) : FailsWith (.setcv v) s .outOfRange := by
  simp only [FailsWith, exec, execSetcv, compareOperand_out h, State.raise]

/-- SETPS configures the compare value that is there (R151, R152). -/
theorem configures_setps (h1 : 1 ≤ n.toNat) (h5 : n.toNat ≤ 5) (s : State) :
    Configures (.setps n) s n.toNat s.cmp.toNat := by
  rw [← toNat_low_ordinal h5]
  exact configures_of_respondConfig (exec_setps_in h1 h5 s)

/-- SETCV configures the ordinal that is there, 0 too (R154, R155). -/
theorem configures_setcv (h : v.toNat ≤ 65535) (s : State) : Configures (.setcv v) s s.presc.toNat v.toNat := by
  rw [← toNat_low_half h]
  exact configures_of_respondConfig (exec_setcv_in h s)

end Override

/-! ### The statements -/

/-- Settles O51: the operand's range decides; that ordinal 0 is never written is O28's half about a successful command. -/
theorem setpsFollowsItsRule : Obligations.SetpsFollowsItsRule := by
  refine ⟨decode_setps, fun n s h => setps_fails h s, fun n s h1 h5 => exec_setps_in h1 h5 s,
    fun s => ⟨setps_fails (by decide) s, setps_fails (by decide) s, setps_fails (by decide) s⟩, ?_, ?_, rfl⟩
  · intro n s t d h hd hzero
    obtain ⟨-, configured⟩ := ordinalZeroOnlyBeforeConfiguration
    obtain ⟨positive, -⟩ : t.Configured := configured _ s t d (.inr (.inr ⟨n, rfl⟩)) h hd
    simp [hzero] at positive
  · rintro ⟨presc, cmp, rsp, host⟩ rfl rfl
    simpa [Configures] using configures_setps (n := 5#32) (by decide) (by decide) ⟨1#3, 15999#16, rsp, host⟩

/-- Settles O52: the operand's range decides; the readers' answers are those of their own rules (R133, R137). -/
theorem setcvFollowsItsRule : Obligations.SetcvFollowsItsRule := by
  refine ⟨decode_setcv, fun v s h => setcv_fails h s, fun v s h => exec_setcv_in h s,
    fun s => setcv_fails (by decide) s, ?_, fun v h => configures_setcv h State.reset,
    fun s => readers_fail _ s (by decide), ?_, rfl⟩
  · intro v s t h
    obtain ⟨frame, -⟩ := accessSummary
    obtain ⟨-, -, -, setcv_keeps_presc, -⟩ := frame _ s t h
    exact setcv_keeps_presc ⟨v, rfl⟩
  · rintro ⟨presc, cmp, rsp, host⟩ rfl rfl
    obtain ⟨-, -, -, corners, -⟩ := rdfFollowsItsRule
    obtain ⟨-, slowest, -⟩ := corners ⟨5#3, 65535#16, rsp, host⟩
    have configured := configures_setcv (v := 65535#32) (by decide) ⟨5#3, 15999#16, rsp, host⟩
    exact ⟨by simpa [Configures] using configured, slowest⟩

/-- Settles O53: each command writes its own field from any state and keeps the other one. -/
theorem overridesReachEveryPair : Obligations.OverridesReachEveryPair := by
  intro n v s h1 h5 hv
  have ordinal := toNat_low_ordinal h5
  have compare := toNat_low_half hv
  exact ⟨⟨_, _, exec_setps_in h1 h5 s, exec_setcv_in hv _, ordinal, compare⟩,
    ⟨_, _, exec_setcv_in hv s, exec_setps_in h1 h5 _, ordinal, compare⟩⟩

end Sys2Proof.Machine
end

section
/-! PROOFS. The statements of spec/60_exceptions.md: the cause table of the errors (R174), and what an error response does
and leaves behind (R175, R177). -/

namespace Sys2Proof.Machine

/-! ### The error response -/

/-- An accepted word that is answered with an error has been served by `raise`, and by nothing else (R175). -/
theorem accept_error {cmd : Cmd} {s t : State} {e : CmdError} {d : Data} (h : accept cmd s = .next t)
    (he : t.rsp = some ⟨.error e, d⟩) : t = s.raise e ∧ d = 0#64 := by
  rcases accept_outcomes cmd s with ⟨e', hraise⟩ | ⟨d', hok⟩ | ⟨o, c, -, hcfg⟩
  · obtain rfl := Host.Outcome.next.inj (h.symm.trans hraise)
    obtain ⟨rfl, rfl⟩ : e' = e ∧ 0#64 = d := by simpa using he
    exact ⟨rfl, rfl⟩
  · obtain rfl := Host.Outcome.next.inj (h.symm.trans hok)
    simp at he
  · obtain rfl := Host.Outcome.next.inj (h.symm.trans hcfg)
    simp at he

theorem step_error {s t : State} {cmd : Cmd} {rest : List HostEvent} {e : CmdError} {d : Data}
    (hs : s.host = .command cmd :: rest) (h : step s = .next t) (he : t.rsp = some ⟨.error e, d⟩) :
    t = State.raise { s with host := rest } e ∧ d = 0#64 :=
  accept_error ((step_cons s _ rest hs).symm.trans h) he

/-- Settles O12: the state after the step is `raise` of the state before it, which writes the response port only. -/
theorem errorResponseWritesNothing : Obligations.ErrorResponseWritesNothing := by
  intro s cmd rest t e d hs h he
  obtain ⟨rfl, rfl⟩ := step_error hs h he
  exact ⟨rfl, rfl, rfl, rfl, rfl, rfl, rfl⟩

/-- Settles O25: `raise` leaves a mark on the response port only, and no step reads that port (R27). -/
theorem failedCommandLeavesNoTrace : Obligations.FailedCommandLeavesNoTrace := by
  intro s t cmd rest e d hs h he
  obtain ⟨rfl, -⟩ := step_error hs h he
  exact responsePortIsNotRead { s with host := rest } (some ⟨.error e, 0#64⟩)

/-! ### The cause table -/

/-- The rows of R174 with a command: its one operand test, and the error raised where the operand fails it. -/
def answerStatus : Instr → Status
  | .solvf f => if f.toNat = 0 ∨ f.toNat > 8000000 then .error .outOfRange else .ok
  | .solvp p => if p.toNat = 0 ∨ p.toNat > 8000000 then .error .outOfRange else .ok
  | .rdf o _ => if o.toNat = 0 ∨ o.toNat ≥ 6 then .error .invalidPrescaler else .ok
  | .rdp o _ => if o.toNat = 0 ∨ o.toNat ≥ 6 then .error .invalidPrescaler else .ok
  | .setps n => if n.toNat = 0 ∨ n.toNat ≥ 6 then .error .outOfRange else .ok
  | .setcv v => if v.toNat ≥ 65536 then .error .outOfRange else .ok

/-- The whole table of R174, its last row, the reserved opcodes, too. -/
def wordStatus (cmd : Cmd) : Status :=
  match decode cmd with
  | .ok i => answerStatus i
  | .error _ => .error .illegalOp

/-- One operand test decides between one error and OK (R176). -/
theorem exec_answers_ite {i : Instr} {s : State} {e : CmdError} {bad : Prop} [Decidable bad]
    (hbad : bad → FailsWith i s e) (hgood : ¬bad → ∃ t d, exec i s = .next t ∧ t.rsp = some ⟨.ok, d⟩) :
    ∃ t d, exec i s = .next t ∧ t.rsp = some ⟨if bad then .error e else .ok, d⟩ := by
  split
  next h => exact ⟨_, _, hbad h, rfl⟩
  next h => exact hgood h

/-- The readers' test and the readers' answers (R172). -/
theorem ordinal_good {o : Half} (h : ¬(o.toNat = 0 ∨ o.toNat ≥ 6)) : ∃ p, Prescaler.ofOrdinal o.toNat = some p :=
  ofOrdinal_isSome (by omega) (by omega)

/-- Every command answers the status of its row. -/
theorem exec_answers_answerStatus (i : Instr) (s : State) :
    ∃ t d, exec i s = .next t ∧ t.rsp = some ⟨answerStatus i, d⟩ := by
  cases i with
  | solvf f =>
    exact exec_answers_ite (fun _ => exec_solvf_out (by omega) s) fun _ => ⟨_, _, exec_solvf_in (by omega) s, rfl⟩
  | solvp p =>
    exact exec_answers_ite (fun _ => exec_solvp_out (by omega) s) fun _ => ⟨_, _, exec_solvp_in (by omega) s, rfl⟩
  | rdf o c =>
    refine exec_answers_ite (fun _ => (readers_fail c s (by omega)).1) fun good => ?_
    obtain ⟨p, hp⟩ := ordinal_good good
    exact ⟨_, _, answers_rdf c s hp, rfl⟩
  | rdp o c =>
    refine exec_answers_ite (fun _ => (readers_fail c s (by omega)).2) fun good => ?_
    obtain ⟨p, hp⟩ := ordinal_good good
    exact ⟨_, _, answers_rdp c s hp, rfl⟩
  | setps n =>
    exact exec_answers_ite (fun _ => setps_fails (by omega) s) fun _ =>
      ⟨_, _, exec_setps_in (by omega) (by omega) s, rfl⟩
  | setcv v =>
    exact exec_answers_ite (fun _ => setcv_fails (by omega) s) fun _ => ⟨_, _, exec_setcv_in (by omega) s, rfl⟩

/-- Every accepted word answers the status of its row, a reserved opcode IllegalOp (R173). -/
theorem accept_answers_wordStatus (cmd : Cmd) (s : State) :
    ∃ t d, accept cmd s = .next t ∧ t.rsp = some ⟨wordStatus cmd, d⟩ := by
  unfold wordStatus
  rcases accept_cases cmd s with ⟨i, hdecode, hi⟩ | ⟨_, hdecode, he⟩
  · rw [hdecode, hi]; exact exec_answers_answerStatus i s
  · rw [hdecode]; exact ⟨_, _, he, s.raise_rsp .illegalOp⟩

/-- A row with an operand test has one error, raised exactly where the operand fails the test. -/
theorem ite_error_eq_error_iff {bad : Prop} [Decidable bad] {e e' : CmdError} :
    (if bad then Status.error e else .ok) = .error e' ↔ bad ∧ e = e' := by
  split <;> simp [*]

/-- The table read by columns, as R174 prints it: opcode by opcode, one row answers. -/
theorem wordStatus_append_iff (op : Op) (arg : Arg) :
    (wordStatus (op ++ arg : BitVec 35) = .error .outOfRange ↔
      ((op = 1#3 ∨ op = 2#3) ∧ (arg.toNat = 0 ∨ arg.toNat > 8000000)) ∨
      (op = 5#3 ∧ (arg.toNat = 0 ∨ arg.toNat ≥ 6)) ∨ (op = 6#3 ∧ arg.toNat ≥ 65536)) ∧
    (wordStatus (op ++ arg : BitVec 35) = .error .invalidPrescaler ↔
      (op = 3#3 ∨ op = 4#3) ∧ ((ordinalField arg).toNat = 0 ∨ (ordinalField arg).toNat ≥ 6)) ∧
    (wordStatus (op ++ arg : BitVec 35) = .error .illegalOp ↔ op = 0#3 ∨ op = 7#3) := by
  rcases op_cases op with rfl | rfl | rfl | rfl | rfl | rfl | rfl | rfl <;>
    simp [wordStatus, answerStatus, decode_reserved, ite_error_eq_error_iff, or_iff_not_imp_left]

/-- Settles O13: the step answers the word with the status of its row, and the columns say where that is which error. -/
theorem errorCauseTable : Obligations.ErrorCauseTable := by
  intro s op arg rest hs
  obtain ⟨t, d, ht, hrsp⟩ := accept_answers_wordStatus (op ++ arg : BitVec 35) { s with host := rest }
  exact ⟨t, _, d, (step_cons s _ rest hs).trans ht, hrsp, wordStatus_append_iff op arg⟩

end Sys2Proof.Machine
end

section
/-! PROOFS. The statements of spec/70_reset_and_hazards.md: reset (R200, R201), the first command after it (R203), and a
command held through it (R201, R204). -/

namespace Sys2Proof.Machine

/-! ### The reset events -/

/-- Between commands or inside an open one, a reset is served by `takeReset` (R200, R201). -/
theorem serve_of_resets {ev : HostEvent} (h : ev.resets = true) (s : State) : serve ev s = .next s.takeReset := by
  cases ev with
  | idle => cases h
  | command cmd => cases h
  | reset held => rfl
  | commandThenReset cmd => rfl

theorem step_of_resets {s : State} {ev : HostEvent} {rest : List HostEvent} (hs : s.host = ev :: rest)
    (h : ev.resets = true) : step s = .next (State.takeReset { s with host := rest }) :=
  (step_cons s ev rest hs).trans (serve_of_resets h _)

/-- `req_ready` is 0 while `rst` is asserted between commands (R201). -/
theorem State.reqReady_of_reset {s : State} {held : Option Cmd} {rest : List HostEvent} (hs : s.host = .reset held :: rest) :
    s.reqReady = false := by
  simp [State.reqReady, State.rst, hs]

/-- What is on the request port is what the next event presents (R28). -/
theorem State.presented_cons {s : State} {ev : HostEvent} {rest : List HostEvent} (hs : s.host = ev :: rest) :
    s.presented = ev.presents := by
  cases ev <;> simp [State.presented, HostEvent.presents, hs]

/-- The duty of R204 at a reset that finds a command presented. -/
theorem hostKeepsDuty_held_iff (cmd : Cmd) (ev : HostEvent) (rest : List HostEvent) :
    hostKeepsDuty (.reset (some cmd) :: ev :: rest) = true ↔
      ev.presents = some cmd ∧ hostKeepsDuty (ev :: rest) = true := by
  simp [hostKeepsDuty]

/-! ### A failing command -/

/-- A command that answers an error has done nothing but `raise` it (R175). -/
theorem exec_error {i : Instr} {s t : State} {e : CmdError} {d : Data} (h : exec i s = .next t)
    (he : t.rsp = some ⟨.error e, d⟩) : t = s.raise e ∧ d = 0#64 :=
  accept_error ((accept_of_decode_ok s (decode_encode i)).trans h) he

/-! ### The statements -/

/-- Settles O3: each command's own rule at `reset_state`, with the solvers' ordinals from the rungs of their ladders. -/
theorem firstCommandAfterReset : Obligations.FirstCommandAfterReset := by
  obtain ⟨-, readers_refuse, readers_answer, -⟩ := readerOperandAndLoopBack
  obtain ⟨rdf_refused, rdp_refused⟩ := readers_refuse 0#16 0#16 State.reset (by decide)
  refine ⟨fun f h1 h2 => ?_, fun p h1 h2 => ?_, fun o c => readers_answer o c State.reset, rdf_refused, rdp_refused,
    fun n h1 h5 => configures_setps h1 h5 State.reset, fun v h => configures_setcv h State.reset, fun i t e d h he => ?_⟩
  · have row := selF_row h1
    have fits := cmpF_le h1 h2
    exact ⟨_, _, by omega, by omega, by omega, configures_solvf h1 h2 State.reset⟩
  · have row := selP_row h1
    have fits := cmpP_le h1 h2
    exact ⟨_, _, by omega, by omega, by omega, configures_solvp h1 h2 State.reset⟩
  · obtain ⟨rfl, data_zero⟩ := exec_error h he
    exact ⟨data_zero, rfl, rfl⟩

/-- Settles O2: `takeReset` sets the registers whatever they were, and nothing is accepted while `req_ready` is 0. -/
theorem resetTakesEffectFromAnyState : Obligations.ResetTakesEffectFromAnyState := by
  refine ⟨fun s ev rest hs hev => ⟨_, step_of_resets hs hev, rfl, rfl, rfl⟩, fun s held rest hs => ?_⟩
  have not_ready := State.reqReady_of_reset hs
  exact ⟨not_ready, by simp [State.accepted, not_ready]⟩

/-- Settles O21: the reset leaves the host's coming events as they are, and the duty makes the first of them present the
held command. -/
theorem heldCommandIsPresentedAfterReset : Obligations.HeldCommandIsPresentedAfterReset := by
  intro s t cmd ev rest hs hduty h
  obtain rfl := Host.Outcome.next.inj ((step_of_resets hs rfl).symm.trans h)
  rw [hs] at hduty
  obtain ⟨presents_held, duty_after⟩ := (hostKeepsDuty_held_iff cmd ev rest).mp hduty
  exact ⟨(State.presented_cons rfl).trans presents_held, rfl, duty_after⟩

end Sys2Proof.Machine
end
